-- ==== Sys2Proof/Config.lean ====
section
/-! DEFINITION. What the platform fixes and the spec leaves OPEN (spec/00_scope.md R7): the place of the aperture.
The other OPEN parameter, the bus protocol `HostBus`, carries no transaction-level behaviour (spec/20_memory.md R55)
and has no counterpart here (log entry 11). -/

namespace Sys2Proof

/-- The aperture's size in bytes (R7, spec/20_memory.md R40). -/
def Config.apertureBytes : Nat := 4096

/-- Which 4096-byte page of the host's addresses the aperture fills: the OPEN parameter `BASE` divided by 4096
(R40, spec/93_implementation_defined.md U10). It has no body, so nothing can depend on its value. -/
opaque Config.basePage : Nat

/-- BASE, the 4096-byte-aligned host address of the aperture (R40). -/
def Config.base : Nat := Config.apertureBytes * Config.basePage

end Sys2Proof
end

