-- ==== Sys2Proof/Word.lean ====
section
/-! DEFINITION. The word types of the block (spec/00_scope.md R7, R8): what the spec treats as bits is a bit vector,
what it treats as an index is a `Fin`. -/

namespace Sys2Proof

/-- A host word, a limb or a command word: 32 bits (R7). -/
abbrev Word := BitVec 32

/-- The contents of a field register: 256 bits (R7, spec/10_state.md R20). -/
abbrev FieldWord := BitVec 256

/-- A byte offset into the 4096-byte aperture, 0x000 to 0xFFF (spec/20_memory.md R40). -/
abbrev Offset := BitVec 12

/-- The index of a field register F0 to F15 (R20); a 4-bit field of the command word names one directly (R61). -/
abbrev RegIx := Fin 16

/-- The index of a 32-bit limb of a field register, 0 the least significant (R22). -/
abbrev LimbIx := Fin 8

end Sys2Proof
end

