-- ==== Sys2Proof/Syntax.lean ====
section
/-! DEFINITION. The syntax of the block: its seven commands (spec/opcode_table.json), the fields of a command word
(spec/30_encoding.md R60), the causes for which a word is rejected (spec/60_exceptions.md R141), and the events the
host sends (spec/20_memory.md R53). -/

namespace Sys2Proof

/-- One command, decoded (spec/41_field_ops.md R101 to R107). The destination comes first, as in the assembler (R68). -/
inductive Instr where
  | add (rd ra rb : RegIx)
  | sub (rd ra rb : RegIx)
  | mul (rd ra rb : RegIx)
  | mul32 (rd ra : RegIx)
  | sqr (rd ra : RegIx)
  | hlv (rd ra : RegIx)
  | cneg (rd ra : RegIx) (cond : Bool)
deriving DecidableEq, Repr

/-- The mnemonics of the opcode map (R63). -/
inductive Mnemonic where
  | add | sub | mul | mul32 | sqr | hlv | cneg
deriving DecidableEq, Repr

/-- The fields of format R (R60): every 32-bit word has them, whether or not it is a command. -/
structure Fields where
  /-- bits 3:0, the opcode -/
  op   : BitVec 4
  /-- bits 7:4, the destination register -/
  rd   : BitVec 4
  /-- bits 11:8, the first source register -/
  ra   : BitVec 4
  /-- bits 15:12, the second source register -/
  rb   : BitVec 4
  /-- bit 16, the condition bit of CNEG -/
  cond : Bool
  /-- bits 31:17, reserved, must be zero -/
  rsv  : BitVec 15
deriving DecidableEq, Repr

/-- Why a word is no command (R141), in the order of priority (R142). -/
inductive CmdError where
  | illegalOpcode
  | reservedNonzero
  | unusedFieldNonzero
deriving DecidableEq, Repr

/-- The width of a host access. Only `bits32` is accepted; the others are those spec/20_memory.md R43 names. -/
inductive AccessWidth where
  | bits8 | bits16 | bits32 | bits64 | burst
deriving DecidableEq, Repr

/-- What the host can send to the block (R53, R55): a read, a write with its byte-lane strobe, or a level on the reset
input `rst_n` (`false` asserts reset). -/
inductive HostEvent where
  | read (width : AccessWidth) (off : Offset)
  | write (width : AccessWidth) (strobe : BitVec 4) (off : Offset) (data : Word)
  | rst (level : Bool)
deriving DecidableEq, Repr

/-- A mapped register of the aperture (R41). -/
inductive Target where
  | freg (i : RegIx) (j : LimbIx)
  | cmd
  | status
  | errcmd
deriving DecidableEq, Repr

end Sys2Proof
end

