-- ==== Sys2Proof/Machine/State.lean ====
section
/-! DEFINITION. The state of the block as plain data (spec/10_state.md R34), with the reasons a step can stop.
Beside what R34 lists it holds the level of the input `rst_n` (spec/20_memory.md R55) and the two ends of the host
port: the events not yet accepted and the last response (log entry 4). The block has no memory of its own (R40), so
there is no list of cells (log entry 13). -/

namespace Sys2Proof.Machine

/-- Why an access is answered with a bus error (spec/20_memory.md R43, R44). -/
inductive BusErrorKind where
  /-- another width than 32 bits, a strobe other than all four lanes, or an offset that is no multiple of 4 (R43) -/
  | badWidthOrAlignment
  /-- an offset from 0x20C to 0xFFF (R44) -/
  | unmapped
deriving DecidableEq, Repr

/-- The faults of spec/60_exceptions.md R147, as the model-level fault mark of the state records them. -/
inductive ModelFault where
  /-- the host issued an access the block does not accept (spec/20_memory.md R43, R44) -/
  | busError (kind : BusErrorKind) (off : Offset)
  /-- the host read limb j of F[i], which nothing had written since reset (spec/10_state.md R23) -/
  | unwrittenRead (i : RegIx) (j : LimbIx)
  /-- a command read F[s], a limb of which nothing had written since reset (R23) -/
  | unwrittenSource (s : RegIx)
deriving DecidableEq, Repr

/-- How a step can be refused. -/
inductive Refusal where
  /-- Raised by `exec` for a command without a meaning; no arm of it does so. SAFE: nothing is claimed of it. -/
  | notModelled (mnemonic : String)
  /-- Raised by `perform` for an access while `rst_n` is 0: "no defined effect and no defined response"
  (spec/20_memory.md R54, spec/93_implementation_defined.md U3). SAFE: nothing is claimed of what follows. -/
  | accessInReset (off : Offset)
deriving DecidableEq, Repr

/-- The last response of the host port (R48, R55). -/
inductive Answer where
  /-- no response stands: after reset, and while `rst_n` is 0 -/
  | none
  /-- the normal response to a write -/
  | done
  /-- the normal response to a read, with its 32 bits -/
  | data (v : Word)
  /-- the error response to an access the block does not accept, which carries no data (R43, R44) -/
  | error
deriving DecidableEq, Repr

/-- The state of the block. -/
structure State where
  /-- F0 to F15 (R20) -/
  f : Vector FieldWord 16
  /-- the written flags W[i][j] (R23) -/
  w : Vector (Vector Bool 8) 16
  /-- STATUS.ERR, bit 0 (R27) -/
  err : Bool
  /-- STATUS.CAUSE, bits 2:1 (R27) -/
  cause : BitVec 2
  /-- STATUS.MULTI, bit 3 (R27) -/
  multi : Bool
  /-- ERRCMD (R29) -/
  errcmd : Word
  /-- the model-level fault mark (R34, R147) -/
  mark : Option ModelFault
  /-- the level of the reset input `rst_n`; `false` while the block is in reset (R160) -/
  rstN : Bool
  /-- the model's own: what the host has issued and the block has not accepted, in order of acceptance (R48) -/
  pending : List HostEvent
  /-- the model's own: the last response of the port -/
  answer : Answer
deriving DecidableEq, Repr

/-- How a step can stop with a fault. -/
inductive Fault where
  /-- Raised by `perform` for a host access the block does not accept (R43, R44): the step is
  `Fault(BusError(kind, off))` (R147). `faulted` is the state it leaves, in which the error response is given, the mark
  records the fault and nothing else has changed. SAFE: the model stops where the chip goes on from that state
  (log entry 5). -/
  | busError (kind : BusErrorKind) (off : Offset) (faulted : State)
deriving DecidableEq, Repr

/-- The machine right after reset (R33, spec/70_reset_and_hazards.md R160). R33 gives the field registers no value:
zero is the model's choice (DESIGN CHOICE, log entry 1). -/
def State.reset : State where
  f := Vector.replicate 16 0
  w := Vector.replicate 16 (Vector.replicate 8 false)
  err := false
  cause := 0b00
  multi := false
  errcmd := 0x00000000
  mark := none
  rstN := true
  pending := []
  answer := .none

end Sys2Proof.Machine
end

