-- ==== Sys2Proof/Machine/FieldModel.lean ====
section
/-! DEFINITION. The field model (spec/40_field_model.md): the modulus, the canonical reduction, the hardwired constants,
and the result formula of each command (spec/41_field_ops.md R101 to R107) on exact integers. -/

namespace Sys2Proof.Machine

/-- The field modulus p = 2^255 − 19 (R80). -/
def p : Nat := 2 ^ 255 - 19

/-- INV2, the inverse of 2 modulo p: (p + 1) / 2 = 2^254 − 9 (R82, log entry 14). -/
def inv2 : Nat := 2 ^ 254 - 9

/-- K32, the fixed constant of MUL32 (R104). -/
def k32 : Nat := 121666

/-- The canonical reduction of an integer of any size and sign (R81): `%` on `Int` with a positive modulus rounds the
quotient toward minus infinity, so the remainder lies in [0, p). -/
def modp (x : Int) : Nat := (x % (p : Int)).toNat

/-- `bits_256` of R8. -/
def bits256 (r : Nat) : FieldWord := BitVec.ofNat 256 r

/-- "(op1 + op2) mod p", from the exact sum (R85, R101). -/
def addResult (a b : FieldWord) : Nat := modp ((a.toNat : Int) + (b.toNat : Int))

/-- "(op1 − op2) mod p", from the exact signed difference (R85, R102, spec/90_conflicts.md C1). -/
def subResult (a b : FieldWord) : Nat := modp ((a.toNat : Int) - (b.toNat : Int))

/-- "(op1 × op2) mod p", from the exact product (R85, R103). -/
def mulResult (a b : FieldWord) : Nat := modp ((a.toNat : Int) * (b.toNat : Int))

/-- "(op1 × 121666) mod p" (R104). -/
def mul32Result (a : FieldWord) : Nat := modp ((a.toNat : Int) * (k32 : Int))

/-- "(op1 × op1) mod p" (R105). -/
def sqrResult (a : FieldWord) : Nat := modp ((a.toNat : Int) * (a.toNat : Int))

/-- "(op1 × inverse(2, p)) mod p" (R106). -/
def hlvResult (a : FieldWord) : Nat := modp ((a.toNat : Int) * (inv2 : Int))

/-- "op1 mod p", or "(p − (op1 mod p)) mod p" with its outer reduction (R107, spec/90_conflicts.md C2). -/
def cnegResult (a : FieldWord) (cond : Bool) : Nat :=
  if cond then modp ((p : Int) - (modp (a.toNat : Int) : Int)) else modp (a.toNat : Int)

end Sys2Proof.Machine
end

