-- ==== Sys2Proof/Machine/Flags.lean ====
section
/-! DEFINITION. The status bits. The block has no arithmetic flags (spec/10_state.md R25): its only status bits are those
of STATUS (R27), which command errors set and the host clears. -/

namespace Sys2Proof.Machine

/-- STATUS as the 32-bit word a read returns: ERR in bit 0, CAUSE in bits 2:1, MULTI in bit 3, the rest zero (R27). -/
def State.statusWord (s : State) : Word :=
  (0 : BitVec 28) ++ BitVec.ofBool s.multi ++ s.cause ++ BitVec.ofBool s.err

/-- A write to STATUS asks for clearing exactly when its bit 0 is 1 (R28). -/
def clearRequested (v : Word) : Bool := v.getLsbD 0

end Sys2Proof.Machine
end

