-- ==== Sys2Proof/WellFormed.lean ====
section
/-! DEFINITION. When the fields of a word form a command: the "must be zero" column of spec/30_encoding.md R60 and the
"uses" columns of its opcode map R63. Every term of `Instr` is well formed by its types (its register indices are
`Fin 16`), so the checks stand where an ill-formed value can be written: on `Fields`. The decoder does not call these
checks; that it accepts exactly what they accept is a statement about it. -/

namespace Sys2Proof

/-- The opcode is one of the seven of R63. -/
def Fields.opLegal (f : Fields) : Bool := decide (1 ≤ f.op.toNat ∧ f.op.toNat ≤ 7)

/-- The reserved bits are zero (R65 (b)). -/
def Fields.rsvClear (f : Fields) : Bool := f.rsv == 0

/-- The condition bit is clear unless the opcode is CNEG's (R63, R65 (c)). -/
def Fields.condUsed (f : Fields) : Bool := !f.cond || f.op == 7

/-- The second source field is zero unless the opcode is binary: ADD, SUB or MUL (R63, R65 (c)). -/
def Fields.rbUsed (f : Fields) : Bool := f.rb == 0 || decide (f.op.toNat ≤ 3)

/-- The fields form a command (R63, R66). -/
def Fields.wellFormed (f : Fields) : Bool := f.opLegal && f.rsvClear && f.condUsed && f.rbUsed

end Sys2Proof
end

