-- ==== Sys2Proof/Decode.lean ====
section
/-! DEFINITION. The decoder and the encoder of command words (spec/30_encoding.md R60 to R67). The decoder is total on
the 2^32 words: it answers one of the seven commands or names the cause of the rejection. -/

namespace Sys2Proof

/-- Field extraction (R61). -/
def fieldsOf (w : Word) : Fields where
  op   := w.extractLsb' 0 4
  rd   := w.extractLsb' 4 4
  ra   := w.extractLsb' 8 4
  rb   := w.extractLsb' 12 4
  cond := w.getLsbD 16
  rsv  := w.extractLsb' 17 15

/-- A 4-bit field as the index of a field register (R61). -/
def regIx (b : BitVec 4) : RegIx := ⟨b.toNat, b.isLt⟩

/-- An opcode outside the map: 0x0 or 0x8 to 0xF (R65 (a)). -/
def opIllegal (op : BitVec 4) : Bool := op == 0 || decide (8 ≤ op.toNat)

/-- The opcodes of the four commands with one source register: MUL32, SQR, HLV, CNEG (R63). -/
def opUnary (op : BitVec 4) : Bool := op == 4 || op == 5 || op == 6 || op == 7

/-- The command of fields that passed every check of `decode`; the last case is CNEG, opcode 7 (R63). -/
def commandOf (f : Fields) : Instr :=
  match f.op.toNat with
  | 1 => .add (regIx f.rd) (regIx f.ra) (regIx f.rb)
  | 2 => .sub (regIx f.rd) (regIx f.ra) (regIx f.rb)
  | 3 => .mul (regIx f.rd) (regIx f.ra) (regIx f.rb)
  | 4 => .mul32 (regIx f.rd) (regIx f.ra)
  | 5 => .sqr (regIx f.rd) (regIx f.ra)
  | 6 => .hlv (regIx f.rd) (regIx f.ra)
  | _ => .cneg (regIx f.rd) (regIx f.ra) f.cond

/-- Decode by fields, the checks in the order of R64, which is the priority of spec/60_exceptions.md R142. -/
def decodeFields (f : Fields) : Except CmdError Instr :=
  if opIllegal f.op then .error .illegalOpcode
  else if f.rsv ≠ 0 then .error .reservedNonzero
  else if f.cond ∧ f.op ≠ 7 then .error .unusedFieldNonzero
  else if opUnary f.op ∧ f.rb ≠ 0 then .error .unusedFieldNonzero
  else .ok (commandOf f)

/-- Decode a command word (R64). -/
def decode (w : Word) : Except CmdError Instr := decodeFields (fieldsOf w)

/-- The code a rejection records in STATUS.CAUSE (spec/60_exceptions.md R141). -/
def CmdError.code : CmdError → BitVec 2
  | .illegalOpcode => 0b01
  | .reservedNonzero => 0b10
  | .unusedFieldNonzero => 0b11

/-! ### The encoder -/

/-- A register index as a 4-bit field. -/
def regBits (r : RegIx) : BitVec 4 := BitVec.ofNat 4 r.val

/-- The fields of a command: its opcode (R63), its registers, and zero in every field it does not use (R65 (c)). -/
def Instr.fields : Instr → Fields
  | .add rd ra rb => ⟨1, regBits rd, regBits ra, regBits rb, false, 0⟩
  | .sub rd ra rb => ⟨2, regBits rd, regBits ra, regBits rb, false, 0⟩
  | .mul rd ra rb => ⟨3, regBits rd, regBits ra, regBits rb, false, 0⟩
  | .mul32 rd ra => ⟨4, regBits rd, regBits ra, 0, false, 0⟩
  | .sqr rd ra => ⟨5, regBits rd, regBits ra, 0, false, 0⟩
  | .hlv rd ra => ⟨6, regBits rd, regBits ra, 0, false, 0⟩
  | .cneg rd ra cond => ⟨7, regBits rd, regBits ra, 0, cond, 0⟩

/-- The word of given fields: they lie side by side, rsv highest and op lowest (R60, R62). -/
def assemble (f : Fields) : Word := f.rsv ++ BitVec.ofBool f.cond ++ f.rb ++ f.ra ++ f.rd ++ f.op

/-- The word of a command (R62, R68). -/
def encode (i : Instr) : Word := assemble i.fields

/-! ### The opcode map as match and mask (R63) -/

/-- The row of the opcode map a command belongs to. -/
def Instr.mnemonic : Instr → Mnemonic
  | .add .. => .add
  | .sub .. => .sub
  | .mul .. => .mul
  | .mul32 .. => .mul32
  | .sqr .. => .sqr
  | .hlv .. => .hlv
  | .cneg .. => .cneg

/-- Column "match" of R63. -/
def Mnemonic.matchWord : Mnemonic → Word
  | .add => 0x00000001
  | .sub => 0x00000002
  | .mul => 0x00000003
  | .mul32 => 0x00000004
  | .sqr => 0x00000005
  | .hlv => 0x00000006
  | .cneg => 0x00000007

/-- Column "mask" of R63. -/
def Mnemonic.mask : Mnemonic → Word
  | .add => 0xFFFF000F
  | .sub => 0xFFFF000F
  | .mul => 0xFFFF000F
  | .mul32 => 0xFFFFF00F
  | .sqr => 0xFFFFF00F
  | .hlv => 0xFFFFF00F
  | .cneg => 0xFFFEF00F

/-- A word selects a mnemonic exactly when it has the row's match under the row's mask (R63). -/
def Mnemonic.selects (m : Mnemonic) (w : Word) : Bool := w &&& m.mask == m.matchWord

/-! ### Registers a command names -/

/-- The destination register. -/
def Instr.dest : Instr → RegIx
  | .add rd _ _ => rd
  | .sub rd _ _ => rd
  | .mul rd _ _ => rd
  | .mul32 rd _ => rd
  | .sqr rd _ => rd
  | .hlv rd _ => rd
  | .cneg rd _ _ => rd

/-- `sources(op, ra, rb)` of spec/41_field_ops.md R100, ra first. -/
def Instr.sources : Instr → List RegIx
  | .add _ ra rb => [ra, rb]
  | .sub _ ra rb => [ra, rb]
  | .mul _ ra rb => [ra, rb]
  | .mul32 _ ra => [ra]
  | .sqr _ ra => [ra]
  | .hlv _ ra => [ra]
  | .cneg _ ra _ => [ra]

/-- What the decoder reads from a word numbered as spec/opcode_table.json numbers its bits: one 32-bit word (R67),
with every bit from `nbits` up taken as zero. -/
def decodeTableWord (nbits w : Nat) : Option Instr :=
  match decode (BitVec.ofNat 32 (w % 2 ^ nbits)) with
  | .ok i => some i
  | .error _ => none

end Sys2Proof
end

