-- ==== Sys2Proof/Machine/Operands.lean ====
section
/-! DEFINITION. The operand forms: field registers and their limbs (spec/10_state.md R20 to R23), the byte view of the
register window (spec/20_memory.md R45), and the decoding of an offset of the aperture (R41, R42). -/

namespace Sys2Proof.Machine

/-- F[i], the whole 256-bit register (R9, R20). -/
def State.reg (s : State) (i : RegIx) : FieldWord := s.f[i.val]

/-- Limb j of a 256-bit value: bits [32j+31 : 32j] (R22). -/
def limbOf (x : FieldWord) (j : LimbIx) : Word := x.extractLsb' (32 * j.val) 32

/-- A 256-bit value with limb j replaced and the other seven limbs kept (R42). -/
def withLimb (x : FieldWord) (j : LimbIx) (v : Word) : FieldWord :=
  (x &&& ~~~((BitVec.allOnes 32).setWidth 256 <<< (32 * j.val))) ||| (v.setWidth 256 <<< (32 * j.val))

/-- L[i][j] (R9, R22). -/
def State.limb (s : State) (i : RegIx) (j : LimbIx) : Word := limbOf (s.reg i) j

/-- W[i][j]: limb j of F[i] has been written since reset (R23). -/
def State.written (s : State) (i : RegIx) (j : LimbIx) : Bool := s.w[i.val][j.val]

/-- Every limb of F[i] has been written since reset (R23). -/
def State.fullyWritten (s : State) (i : RegIx) : Bool := decide (∀ j : LimbIx, s.written i j = true)

/-- The first source register of a command that has an unwritten limb (R100). -/
def State.unwrittenSource? (s : State) (sources : List RegIx) : Option RegIx :=
  sources.find? fun i => !s.fullyWritten i

/-- Byte b of the FREG window in the host's byte view (R45): byte lane b mod 4 of the limb at that offset. -/
def State.windowByte (s : State) (b : Fin 512) : BitVec 8 :=
  (s.limb ⟨b.val / 32, by omega⟩ ⟨b.val / 4 % 8, by omega⟩).extractLsb' (8 * (b.val % 4)) 8

/-- The register at an aligned offset of the aperture, or none in the unmapped range (R41); in the FREG window
i = off[8:5] and j = off[4:2] (R42). -/
def targetOf (off : Offset) : Option Target :=
  if off.toNat ≤ 0x1FF then some (.freg (regIx (off.extractLsb' 5 4)) ⟨(off.extractLsb' 2 3).toNat, BitVec.isLt _⟩)
  else if off.toNat < 0x204 then some .cmd
  else if off.toNat < 0x208 then some .status
  else if off.toNat < 0x20C then some .errcmd
  else none

/-- An offset that is a multiple of 4: off[1:0] = 0 (R43). -/
def aligned (off : Offset) : Bool := off.extractLsb' 0 2 == 0

/-- The offset of limb j of F[i] (R42). -/
def limbOffset (i : RegIx) (j : LimbIx) : Offset := BitVec.ofNat 12 (0x20 * i.val + 4 * j.val)

end Sys2Proof.Machine
end

