-- ==== Sys2Proof/Machine/Ops.lean ====
section
/-! DEFINITION. The named operations on the state: writing registers, raising the fault mark, recording and clearing a
command error, reset, and the execution frame every command shares. -/

namespace Sys2Proof.Machine

/-- `F[i] <- v` by a command: all 256 bits, and all eight written flags (spec/10_state.md R9, R23). -/
def State.writeReg (s : State) (i : RegIx) (v : FieldWord) : State :=
  { s with f := s.f.set i.val v, w := s.w.set i.val (Vector.replicate 8 true) }

/-- `L[i][j] <- v` by the host: that limb and its written flag (spec/20_memory.md R42). -/
def State.writeLimb (s : State) (i : RegIx) (j : LimbIx) (v : Word) : State :=
  { s with f := s.f.set i.val (withLimb (s.reg i) j v), w := s.w.set i.val (s.w[i.val].set j.val true) }

/-- The mark is set and no later fault replaces it (spec/60_exceptions.md R147). After an unwritten limb the machine goes
on, as the chip does (spec/10_state.md R23, log entry 2). -/
def State.raise (s : State) (m : ModelFault) : State :=
  match s.mark with
  | none => { s with mark := some m }
  | some _ => s

/-- Mark a command that reads an unwritten source (R23, R100). -/
def State.noteSources (s : State) (sources : List RegIx) : State :=
  match s.unwrittenSource? sources with
  | none => s
  | some i => s.raise (.unwrittenSource i)

/-- Give the host a response. -/
def State.respond (s : State) (a : Answer) : State := { s with answer := a }

/-- `raise BusError(kind)` on an access at `off`: the error response, the mark, and no other change
(spec/20_memory.md R43, R44, spec/60_exceptions.md R140, R147). -/
def State.rejectAccess (s : State) (kind : BusErrorKind) (off : Offset) : State :=
  (s.respond .error).raise (.busError kind off)

/-- Recording a command error (spec/60_exceptions.md R143): the first is kept, a further one sets MULTI. It stands where
other machines take an exception; the block has no trap (R146). -/
def State.recordCmdError (s : State) (c : CmdError) (word : Word) : State :=
  if s.err then { s with multi := true } else { s with err := true, cause := c.code, errcmd := word }

/-- Clearing ERR, CAUSE, MULTI and ERRCMD (spec/10_state.md R28). -/
def State.clearErrors (s : State) : State :=
  { s with err := false, cause := 0b00, multi := false, errcmd := 0x00000000 }

/-- A write of `v` to STATUS (R28). -/
def State.writeStatus (s : State) (v : Word) : State := if clearRequested v then s.clearErrors else s

/-- Every piece of the block's state at its value of R33. The mark is kept (R147: no later step clears it), the host's
queue is the host's, and no response stands (spec/70_reset_and_hazards.md R160, R161, log entry 8). -/
def State.resetBlock (s : State) : State :=
  { State.reset with mark := s.mark, rstN := s.rstN, pending := s.pending }

/-- The input `rst_n` driven to a level (R160): low holds the block in reset, and the state is that of R33 when it is
high again; high on a block that is not in reset changes nothing (log entry 8). -/
def State.driveReset (s : State) (level : Bool) : State :=
  if level && s.rstN then s else { s.resetBlock with rstN := level }

/-- The execution frame of spec/41_field_ops.md R100: the sources are noted, the result, computed from the values the
registers held before, is written last, and nothing else changes. -/
def runCommand (sources : List RegIx) (rd : RegIx) (result : Nat) (s : State) :
    Host.Outcome State Fault Refusal :=
  .next ((s.noteSources sources).writeReg rd (bits256 result))

end Sys2Proof.Machine
end

