-- ==== Sys2Proof/Machine/FieldOps.lean ====
section
/-! DEFINITION. The meanings of the seven commands (spec/41_field_ops.md R101 to R107), each one line over the shared
execution frame `runCommand` (R100) and its result formula. -/

namespace Sys2Proof.Machine

/-- ADD: F[rd] <- modp(F[ra] + F[rb]) (R101). -/
def execAdd (rd ra rb : RegIx) (s : State) : Host.Outcome State Fault Refusal :=
  runCommand [ra, rb] rd (addResult (s.reg ra) (s.reg rb)) s

/-- SUB: F[rd] <- modp(F[ra] − F[rb]) (R102). -/
def execSub (rd ra rb : RegIx) (s : State) : Host.Outcome State Fault Refusal :=
  runCommand [ra, rb] rd (subResult (s.reg ra) (s.reg rb)) s

/-- MUL: F[rd] <- modp(F[ra] · F[rb]) (R103). -/
def execMul (rd ra rb : RegIx) (s : State) : Host.Outcome State Fault Refusal :=
  runCommand [ra, rb] rd (mulResult (s.reg ra) (s.reg rb)) s

/-- MUL32: F[rd] <- modp(F[ra] · 121666) (R104). -/
def execMul32 (rd ra : RegIx) (s : State) : Host.Outcome State Fault Refusal :=
  runCommand [ra] rd (mul32Result (s.reg ra)) s

/-- SQR: F[rd] <- modp(F[ra] · F[ra]) (R105). -/
def execSqr (rd ra : RegIx) (s : State) : Host.Outcome State Fault Refusal :=
  runCommand [ra] rd (sqrResult (s.reg ra)) s

/-- HLV: F[rd] <- modp(F[ra] · INV2) (R106). -/
def execHlv (rd ra : RegIx) (s : State) : Host.Outcome State Fault Refusal :=
  runCommand [ra] rd (hlvResult (s.reg ra)) s

/-- CNEG: F[rd] <- modp(F[ra]), or its negation when cond = 1 (R107). -/
def execCneg (rd ra : RegIx) (cond : Bool) (s : State) : Host.Outcome State Fault Refusal :=
  runCommand [ra] rd (cnegResult (s.reg ra) cond) s

end Sys2Proof.Machine
end

