-- ==== Sys2Proof/Machine/Dispatch.lean ====
section
/-! DEFINITION. The one match from a decoded command to its meaning (spec/41_field_ops.md R100). -/

namespace Sys2Proof.Machine

def exec (i : Instr) (s : State) : Host.Outcome State Fault Refusal :=
  match i with
  | .add rd ra rb => Sys2Proof.Machine.execAdd rd ra rb s
  | .sub rd ra rb => Sys2Proof.Machine.execSub rd ra rb s
  | .mul rd ra rb => Sys2Proof.Machine.execMul rd ra rb s
  | .mul32 rd ra => Sys2Proof.Machine.execMul32 rd ra s
  | .sqr rd ra => Sys2Proof.Machine.execSqr rd ra s
  | .hlv rd ra => Sys2Proof.Machine.execHlv rd ra s
  | .cneg rd ra cond => Sys2Proof.Machine.execCneg rd ra cond s

end Sys2Proof.Machine
end

