-- ==== Sys2Proof/Machine/HostPort.lean ====
section
/-! DEFINITION. The host port (spec/20_memory.md): which accesses are accepted, what each does to the register it
reaches, and what a reset level does. A command is a write to CMD and runs within that one access (R48). -/

namespace Sys2Proof.Machine

/-- The register an access of this width reaches at this offset, or the bus error it is answered with. Width and
alignment are checked first (R43), then the map (R41, R44); which kind an access has that fails both is the model's
choice (log entry 6). -/
def accessTarget (width : AccessWidth) (off : Offset) : Except BusErrorKind Target :=
  if width = .bits32 ∧ aligned off = true then
    match targetOf off with
    | some t => .ok t
    | none => .error .unmapped
  else .error .badWidthOrAlignment

/-- The same for a write: a byte strobe other than all four lanes is a bad width (R43). -/
def writeTarget (width : AccessWidth) (strobe : BitVec 4) (off : Offset) : Except BusErrorKind Target :=
  if strobe = 0xF then accessTarget width off else .error .badWidthOrAlignment

/-- Mark a host read of an unwritten limb (spec/10_state.md R23). -/
def State.noteRead (s : State) (i : RegIx) (j : LimbIx) : State :=
  if s.written i j then s else s.raise (.unwrittenRead i j)

/-- A read of a mapped register: no side effect (R47) but the mark of an unwritten limb (R23). CMD reads as zero (R26). -/
def readTarget (t : Target) (s : State) : State :=
  match t with
  | .freg i j => (s.noteRead i j).respond (.data (s.limb i j))
  | .cmd => s.respond (.data 0x00000000)
  | .status => s.respond (.data s.statusWord)
  | .errcmd => s.respond (.data s.errcmd)

/-- A write of `v` to CMD: the word is decoded and the command runs, or its rejection is recorded; either way the write
gets the normal response (R26, spec/60_exceptions.md R143). -/
def submit (v : Word) (s : State) : Host.Outcome State Fault Refusal :=
  match decode v with
  | .ok i => exec i (s.respond .done)
  | .error c => .next ((s.respond .done).recordCmdError c v)

/-- A write of `v` to a mapped register. A write to ERRCMD is ignored (R29). -/
def writeRegister (t : Target) (v : Word) (s : State) : Host.Outcome State Fault Refusal :=
  match t with
  | .freg i j => .next ((s.writeLimb i j v).respond .done)
  | .cmd => submit v s
  | .status => .next ((s.writeStatus v).respond .done)
  | .errcmd => .next (s.respond .done)

/-- What one event of the host does (R42 to R44, R53, R54). -/
def perform (e : HostEvent) (s : State) : Host.Outcome State Fault Refusal :=
  match e with
  | .rst level => .next (s.driveReset level)
  | .read width off =>
    if s.rstN then
      match accessTarget width off with
      | .ok t => .next (readTarget t s)
      | .error kind => .fault (.busError kind off (s.rejectAccess kind off))
    else .refused (.accessInReset off)
  | .write width strobe off v =>
    if s.rstN then
      match writeTarget width strobe off with
      | .ok t => writeRegister t v s
      | .error kind => .fault (.busError kind off (s.rejectAccess kind off))
    else .refused (.accessInReset off)

/-- The block accepts the host's next event (R48); with none pending it is idle and nothing changes
(spec/60_exceptions.md R154, spec/70_reset_and_hazards.md R162, log entry 12). -/
def acceptNext (s : State) : Host.Outcome State Fault Refusal :=
  match s.pending with
  | [] => .next s
  | e :: rest => perform e { s with pending := rest }

/-- The offset a host address has in the aperture, if it lies in it (R40). -/
def busOffset (addr : Nat) : Option Offset :=
  if Config.base ≤ addr ∧ addr < Config.base + Config.apertureBytes then some (BitVec.ofNat 12 (addr - Config.base))
  else none

/-- The host issues one more event; the block accepts events in the order of the queue (R48). When several masters
share the block, the interconnect's order of issue is the order of the queue (R49, log entry 11). -/
def State.enqueue (s : State) (e : HostEvent) : State := { s with pending := s.pending ++ [e] }

/-- A read at a host address: it reaches the block only inside the aperture (R40). -/
def State.hostRead (s : State) (width : AccessWidth) (addr : Nat) : State :=
  match busOffset addr with
  | some off => s.enqueue (.read width off)
  | none => s

/-- A write at a host address: it reaches the block only inside the aperture (R40). -/
def State.hostWrite (s : State) (width : AccessWidth) (strobe : BitVec 4) (addr : Nat) (v : Word) : State :=
  match busOffset addr with
  | some off => s.enqueue (.write width strobe off v)
  | none => s

/-! ### The spec's notation for host programs -/

/-- `bw off, v`: a 32-bit write with all four byte lanes (spec/30_encoding.md R69). -/
def bw (off : Offset) (v : Word) : HostEvent := .write .bits32 0xF off v

/-- `br off`: a 32-bit read (R69). -/
def br (off : Offset) : HostEvent := .read .bits32 off

/-- A command on its own line: `bw 0x200, <its word>` (R69). -/
def issue (i : Instr) : HostEvent := bw 0x200 (encode i)

/-- `red fd, fa` (R70). -/
def red (fd fa : RegIx) : Instr := .cneg fd fa false

/-- `neg fd, fa` (R70). -/
def neg (fd fa : RegIx) : Instr := .cneg fd fa true

/-- `ldf fi, V`: eight limb writes, limb 0 first (R70). -/
def ldf (i : RegIx) (v : FieldWord) : List HostEvent := (List.finRange 8).map fun j => bw (limbOffset i j) (limbOf v j)

/-- `stf fi`: eight limb reads, limb 0 first (R70). -/
def stf (i : RegIx) : List HostEvent := (List.finRange 8).map fun j => br (limbOffset i j)

/-- `clrerr` (R70). -/
def clrerr : HostEvent := bw 0x204 0x00000001

/-- The assembler's spelling of a register operand (R68). -/
def regName (i : RegIx) : String := "f" ++ toString i.val

/-- The assembler's spelling of a command (R68). -/
def asm : Instr → String
  | .add rd ra rb => "add " ++ regName rd ++ ", " ++ regName ra ++ ", " ++ regName rb
  | .sub rd ra rb => "sub " ++ regName rd ++ ", " ++ regName ra ++ ", " ++ regName rb
  | .mul rd ra rb => "mul " ++ regName rd ++ ", " ++ regName ra ++ ", " ++ regName rb
  | .mul32 rd ra => "mul32 " ++ regName rd ++ ", " ++ regName ra
  | .sqr rd ra => "sqr " ++ regName rd ++ ", " ++ regName ra
  | .hlv rd ra => "hlv " ++ regName rd ++ ", " ++ regName ra
  | .cneg rd ra cond => "cneg " ++ regName rd ++ ", " ++ regName ra ++ ", " ++ (if cond then "1" else "0")

end Sys2Proof.Machine
end

