-- ==== Sys2Proof/Machine/Step.lean ====
section
/-! DEFINITION. One step of the machine: the block accepts one event of the host. The block has no program counter and
fetches nothing (spec/10_state.md R24): a command reaches it as a write to CMD. -/

namespace Sys2Proof.Machine

/-- One step (spec/20_memory.md R48). -/
def step (s : State) : Host.Outcome State Fault Refusal := acceptNext s

/-- The state in which the host's very next event is the write of a command word to CMD. The word stands first in the
queue, and the block is out of reset, since it accepts no access in reset (log entry 4). -/
def State.withFetchWord (s : State) (nbits w : Nat) : State :=
  { s with rstN := true, pending := bw 0x200 (BitVec.ofNat 32 (w % 2 ^ nbits)) :: s.pending }

end Sys2Proof.Machine
end

