-- ==== Sys2Proof/Safety.lean ====
section
/-! DEFINITION. What counts as a good run, and the predicates the statements are written with: the invariant of the
status registers, the frame of a command, the outcome in the spec's own terms (spec/60_exceptions.md R147), and the
relation "equal up to limbs nothing has written". -/

namespace Sys2Proof.Machine

/-- A state of a good run: no fault has happened (R147: "a faulted state is never a good final state"). -/
abbrev State.good (s : State) : Prop := s.mark = none

/-- The outcome of a step in the terms of R147: a bus error is its fault, and where the machine went on with a value the
spec does not name, the mark is reported as the fault (log entry 2). -/
def strictOutcome (s : State) : Host.Outcome State ModelFault Refusal :=
  match step s with
  | .next t =>
    match t.mark with
    | some m => .fault m
    | none => .next t
  | .fault (.busError kind off _) => .fault (.busError kind off)
  | .refused r => .refused r

/-- The invariant of STATUS and ERRCMD. While ERR is 0 the other fields are 0 (spec/10_state.md R27, R29); while ERR
is 1, ERRCMD is a word that is no command and CAUSE is the code of its rejection (R29, R141, R143). -/
def State.statusInv (s : State) : Prop :=
  (s.err = false → s.cause = 0 ∧ s.multi = false ∧ s.errcmd = 0) ∧
  (s.err = true → ∃ c, decode s.errcmd = .error c ∧ s.cause = c.code)

/-- The invariant of a block held in reset: it has the status and the written flags of R33
(spec/70_reset_and_hazards.md R160) and no response stands (log entry 8). -/
def State.resetInv (s : State) : Prop :=
  s.rstN = false → s.err = false ∧ (∀ i j, s.written i j = false) ∧ s.answer = .none

/-- The invariant every step keeps. -/
def State.inv (s : State) : Prop := s.statusInv ∧ s.resetInv

/-- What a command with destination `rd` leaves unchanged from `s` to `t` (spec/41_field_ops.md R100): the other
fifteen registers with their written flags and their bytes in the host's window, STATUS, ERRCMD, the reset level, the
queue and the response. -/
structure CommandFrame (rd : RegIx) (s t : State) : Prop where
  regs : ∀ i, i ≠ rd → t.reg i = s.reg i
  written : ∀ i j, i ≠ rd → t.written i j = s.written i j
  bytes : ∀ b : Fin 512, b.val / 32 ≠ rd.val → t.windowByte b = s.windowByte b
  err : t.err = s.err
  cause : t.cause = s.cause
  multi : t.multi = s.multi
  errcmd : t.errcmd = s.errcmd
  rstN : t.rstN = s.rstN
  pending : t.pending = s.pending
  answer : t.answer = s.answer

/-- The two states are equal but for limbs that nothing has written since reset (spec/10_state.md R23, R33). -/
structure AgreeOnWritten (s t : State) : Prop where
  limbs : ∀ i j, s.written i j = true → t.limb i j = s.limb i j
  w : t.w = s.w
  err : t.err = s.err
  cause : t.cause = s.cause
  multi : t.multi = s.multi
  errcmd : t.errcmd = s.errcmd
  mark : t.mark = s.mark
  rstN : t.rstN = s.rstN
  pending : t.pending = s.pending
  answer : t.answer = s.answer

/-- `n` steps, stopping at the first fault or refusal. -/
def run : Nat → State → Host.Outcome State Fault Refusal
  | 0, s => .next s
  | n + 1, s =>
    match step s with
    | .next t => run n t
    | .fault x => .fault x
    | .refused r => .refused r

/-- The state an outcome leaves, faulted or not; a refused step leaves none. -/
def stateAfter : Host.Outcome State Fault Refusal → Option State
  | .next t => some t
  | .fault (.busError _ _ t) => some t
  | .refused _ => none

/-- `n` steps that go on past a bus error from the state it leaves, as the chip does (spec/60_exceptions.md R140),
stopping at the first refusal. -/
def runOn : Nat → State → Option State
  | 0, s => some s
  | n + 1, s => (stateAfter (step s)).bind (runOn n)

/-- The events of a list performed one by one in their order (spec/20_memory.md R48), stopping at the first fault or
refusal. -/
def runEvents : List HostEvent → State → Host.Outcome State Fault Refusal
  | [], s => .next s
  | e :: es, s =>
    match perform e s with
    | .next t => runEvents es t
    | .fault x => .fault x
    | .refused r => .refused r

/-- The events of a list performed one by one in their order, going on past a bus error from the state it leaves, as the
chip does (R48, spec/60_exceptions.md R140), stopping at the first refusal. -/
def runEventsOn : List HostEvent → State → Option State
  | [], s => some s
  | e :: es, s => (stateAfter (perform e s)).bind (runEventsOn es)

/-- The outcome with another queue of events in the state it leaves. -/
def withQueue (queue : List HostEvent) : Host.Outcome State Fault Refusal → Host.Outcome State Fault Refusal
  | .next t => .next { t with pending := queue }
  | .fault (.busError kind off t) => .fault (.busError kind off { t with pending := queue })
  | .refused r => .refused r

/-- The event is an access: a read or a write. -/
def isAccess : HostEvent → Prop
  | .rst _ => False
  | .read .. => True
  | .write .. => True

/-- The access is one the block accepts: 32 bits with all four lanes, aligned and mapped (R43, R44); a level on `rst_n`
is always accepted. -/
def accepted : HostEvent → Prop
  | .rst _ => True
  | .read width off => width = .bits32 ∧ off.toNat % 4 = 0 ∧ off.toNat < 0x20C
  | .write width strobe off _ => width = .bits32 ∧ strobe = 0xF ∧ off.toNat % 4 = 0 ∧ off.toNat < 0x20C

end Sys2Proof.Machine
end

