-- ==== Sys2Proof/Certificates/Slice0/Obligations.lean ====
section
/-! DEFINITION. The statements for the provers, each from the spec's numbered rules. -/

open Sys2Proof Sys2Proof.Machine

/-! ### Reset -/

/-- spec/10_state.md R33: after reset STATUS and ERRCMD are zero, no command is in flight, every written flag is clear,
a read of CMD returns zero, and each read is the first event the block can be sent. That nothing is pending is the
model's choice (log entry 4). The registers' own values after reset are the model's choice (log entry 1) and no part of
this. -/
def Obligations.ResetLeavesStatusAndFlagsClear : Prop :=
  State.reset.err = false ∧ State.reset.cause = 0b00 ∧ State.reset.multi = false ∧
  State.reset.errcmd = 0x00000000 ∧ State.reset.pending = [] ∧ (∀ i j, State.reset.written i j = false) ∧
  (∀ rest, ∃ t, step { State.reset with pending := br 0x204 :: rest } = .next t ∧ t.answer = .data 0x00000000) ∧
  (∀ rest, ∃ t, step { State.reset with pending := br 0x208 :: rest } = .next t ∧ t.answer = .data 0x00000000) ∧
  (∀ rest, ∃ t, step { State.reset with pending := br 0x200 :: rest } = .next t ∧ t.answer = .data 0x00000000)

/-- spec/70_reset_and_hazards.md R160: whatever state the block is in, pulsing `rst_n` low and then high leaves STATUS
and ERRCMD zero and every written flag clear, with the block out of reset; so does the rising level alone, on a block
held in reset. It accepts the next event at once. That a high level on a block out of reset changes nothing, and that
reset keeps the queue of later events, is the model's choice (log entry 8). The registers' own values are the model's
choice (log entry 1) and no part of this. -/
def Obligations.ResetPulseRestoresResetState : Prop :=
  (∀ (s : State) (rest : List HostEvent), s.pending = .rst false :: .rst true :: rest →
    ∃ t, run 2 s = .next t ∧ t.err = false ∧ t.cause = 0b00 ∧ t.multi = false ∧ t.errcmd = 0x00000000 ∧
      (∀ i j, t.written i j = false) ∧ t.rstN = true ∧ t.pending = rest) ∧
  (∀ (s : State) (rest : List HostEvent), s.rstN = false → s.pending = .rst true :: rest →
    ∃ t, step s = .next t ∧ t.err = false ∧ t.cause = 0b00 ∧ t.multi = false ∧ t.errcmd = 0x00000000 ∧
      (∀ i j, t.written i j = false) ∧ t.rstN = true ∧ t.pending = rest) ∧
  (∀ (s : State) (rest : List HostEvent), s.rstN = true → s.pending = .rst true :: rest →
    step s = .next { s with pending := rest })

/-! ### Encoding -/

/-- spec/30_encoding.md R62, R64: decoding the encoding of any command, with every operand at every value, gives it
back. -/
def Obligations.DecodeOfEncodeIsIdentity : Prop :=
  ∀ i : Instr, decode (encode i) = .ok i

/-- spec/30_encoding.md R66: every one of the 2^32 words is the encoding of exactly one command, the one it decodes to,
or is the encoding of none and is a command error. -/
def Obligations.EveryWordIsOneCommandOrAnError : Prop :=
  ∀ w : Word,
    (∃ i, decode w = .ok i ∧ ∀ k, encode k = w ↔ k = i) ∨
    (∃ c, decode w = .error c ∧ ∀ k, encode k ≠ w)

/-- spec/30_encoding.md R63: a word selects a mnemonic exactly when it has the row's match under the row's mask, and a
word that selects none is rejected. -/
def Obligations.DecodeFollowsMatchAndMask : Prop :=
  ∀ w : Word,
    (∀ m : Mnemonic, (∃ i, decode w = .ok i ∧ i.mnemonic = m) ↔ w &&& m.mask = m.matchWord) ∧
    ((∀ m : Mnemonic, w &&& m.mask ≠ m.matchWord) → ∃ c, decode w = .error c)

/-- spec/30_encoding.md R64: the cause of a rejection by the word's bits, in the order of the checks; a word that passes
them decodes to the command of its opcode with the registers and the condition bit of its fields (R61). -/
def Obligations.DecodeChecksInOrder : Prop :=
  ∀ (w : Word) (op rd ra rb cond rsv : Nat),
    op = w.toNat % 16 → rd = w.toNat / 2 ^ 4 % 16 → ra = w.toNat / 2 ^ 8 % 16 → rb = w.toNat / 2 ^ 12 % 16 →
    cond = w.toNat / 2 ^ 16 % 2 → rsv = w.toNat / 2 ^ 17 →
    (decode w = .error .illegalOpcode ↔ op = 0 ∨ 8 ≤ op) ∧
    (decode w = .error .reservedNonzero ↔ (1 ≤ op ∧ op ≤ 7) ∧ rsv ≠ 0) ∧
    (decode w = .error .unusedFieldNonzero ↔
      (1 ≤ op ∧ op ≤ 7) ∧ rsv = 0 ∧ ((op ≤ 6 ∧ cond ≠ 0) ∨ (4 ≤ op ∧ rb ≠ 0))) ∧
    (∀ i, decode w = .ok i →
      i.dest.val = rd ∧ i.sources.map (fun r => r.val) = (if op ≤ 3 then [ra, rb] else [ra]) ∧
      (i.mnemonic = .add ↔ op = 1) ∧ (i.mnemonic = .sub ↔ op = 2) ∧ (i.mnemonic = .mul ↔ op = 3) ∧
      (i.mnemonic = .mul32 ↔ op = 4) ∧ (i.mnemonic = .sqr ↔ op = 5) ∧ (i.mnemonic = .hlv ↔ op = 6) ∧
      (i.mnemonic = .cneg ↔ op = 7) ∧
      ∀ d a c, i = .cneg d a c → (c = true ↔ cond = 1))

/-- spec/30_encoding.md R62: the word of given fields, and its example. -/
def Obligations.EncodingPlacesFields : Prop :=
  (∀ f : Fields, assemble f =
    (f.rsv.setWidth 32 <<< 17) ||| ((BitVec.ofBool f.cond).setWidth 32 <<< 16) ||| (f.rb.setWidth 32 <<< 12) |||
      (f.ra.setWidth 32 <<< 8) ||| (f.rd.setWidth 32 <<< 4) ||| f.op.setWidth 32) ∧
  encode (.add 3 1 2) = 0x00002131

/-- spec/30_encoding.md R60, R63 (derived): the decoder accepts exactly the words whose fields pass the checks of
WellFormed.lean. -/
def Obligations.DecodeAcceptsWellFormedFields : Prop :=
  ∀ w : Word, (∃ i, decode w = .ok i) ↔ (fieldsOf w).wellFormed = true

/-- A few words of spec/95_test_vectors.md sections 4 and 6, which its authors derived from the encoding, decode to the
commands they stand for. A sanity statement. -/
def Obligations.PublishedWordsDecode : Prop :=
  decode 0x00002131 = .ok (.add 3 1 2) ∧ decode 0x00002142 = .ok (.sub 4 1 2) ∧
  decode 0x00004353 = .ok (.mul 5 3 4) ∧ decode 0x00000344 = .ok (.mul32 4 3) ∧
  decode 0x00000165 = .ok (.sqr 6 1) ∧ decode 0x00000126 = .ok (.hlv 2 1) ∧
  decode 0x00000127 = .ok (.cneg 2 1 false) ∧ decode 0x00010127 = .ok (.cneg 2 1 true) ∧
  decode 0x00000000 = .error .illegalOpcode ∧ decode 0x0001F008 = .error .illegalOpcode ∧
  decode 0x80010001 = .error .reservedNonzero ∧ decode 0x00011007 = .error .unusedFieldNonzero

/-! ### The field model -/

/-- spec/40_field_model.md R80: the modulus, its hexadecimal value, its primality, and the useful forms. -/
def Obligations.ModulusIsThePrime25519 : Prop :=
  p = 2 ^ 255 - 19 ∧ p = 0x7FFFFFFFFFFFFFFFFFFFFFFFFFFFFFFFFFFFFFFFFFFFFFFFFFFFFFFFFFFFFFED ∧ Nat.Prime p ∧
  2 ^ 255 ≡ 19 [MOD p] ∧ 2 ^ 256 ≡ 38 [MOD p] ∧ 2 * p = 2 ^ 256 - 38 ∧
  2 * p = 0xFFFFFFFFFFFFFFFFFFFFFFFFFFFFFFFFFFFFFFFFFFFFFFFFFFFFFFFFFFFFFFDA ∧
  3 * p = 3 * 2 ^ 255 - 57 ∧ 2 ^ 256 < 3 * p ∧ ∀ x : FieldWord, x.toNat < 3 * p

/-- spec/40_field_model.md R81: the canonical reduction of any integer is the one integer in [0, p) congruent to it, and
is x minus p times the floor of x / p; the reduction of −19 is p − 19. -/
def Obligations.ReductionIsCanonical : Prop :=
  modp (-19) = p - 19 ∧
  ∀ x : Int,
    modp x < p ∧ (modp x : Int) ≡ x [ZMOD (p : Int)] ∧ (∀ r : Nat, r < p → (r : Int) ≡ x [ZMOD (p : Int)] → r = modp x) ∧
    (modp x : Int) = x - p * ⌊(x : ℚ) / (p : ℚ)⌋

/-- spec/40_field_model.md R82: INV2 is 2^(p−2) mod p, its value, and that it is the inverse of 2. -/
def Obligations.HalvingConstantInvertsTwo : Prop :=
  inv2 = 2 ^ (p - 2) % p ∧ inv2 = (p + 1) / 2 ∧ inv2 = 2 ^ 254 - 9 ∧
  inv2 = 0x3FFFFFFFFFFFFFFFFFFFFFFFFFFFFFFFFFFFFFFFFFFFFFFFFFFFFFFFFFFFFFF7 ∧
  ∀ x : Nat, x < p → (2 * x ≡ 1 [MOD p] ↔ x = inv2)

/-- spec/40_field_model.md R89: the laws of the seven results, for all operands. -/
def Obligations.FieldLawsHold : Prop :=
  ∀ (a b : FieldWord) (cond : Bool),
    (addResult a b < p ∧ subResult a b < p ∧ mulResult a b < p ∧ mul32Result a < p ∧ sqrResult a < p ∧
      hlvResult a < p ∧ cnegResult a cond < p) ∧
    addResult a b ≡ a.toNat + b.toNat [MOD p] ∧
    (subResult a b : Int) ≡ (a.toNat : Int) - (b.toNat : Int) [ZMOD (p : Int)] ∧
    mulResult a b ≡ a.toNat * b.toNat [MOD p] ∧
    (cnegResult (bits256 (cnegResult a true)) true = cnegResult a false ∧ cnegResult a false = modp (a.toNat : Int)) ∧
    modp ((2 * hlvResult a : Nat) : Int) = modp (a.toNat : Int) ∧
    mul32Result a ≡ 121666 * a.toNat [MOD p] ∧
    (addResult (bits256 p) b = addResult 0 b ∧ addResult a (bits256 p) = addResult a 0 ∧
      subResult (bits256 p) b = subResult 0 b ∧ subResult a (bits256 p) = subResult a 0 ∧
      mulResult (bits256 p) b = mulResult 0 b ∧ mulResult a (bits256 p) = mulResult a 0 ∧
      mul32Result (bits256 p) = mul32Result 0 ∧ sqrResult (bits256 p) = sqrResult 0 ∧
      hlvResult (bits256 p) = hlvResult 0 ∧ cnegResult (bits256 p) cond = cnegResult 0 cond)

/-- spec/40_field_model.md R90 (which the spec marks as derived): the equivalent forms of the results. -/
def Obligations.EquivalentResultForms : Prop :=
  ∀ (a b : FieldWord) (r : Nat), r = a.toNat % p →
    hlvResult a = (if r % 2 = 0 then r / 2 else (r + p) / 2) ∧
    cnegResult a true = (if r = 0 then 0 else p - r) ∧ cnegResult a false = r ∧
    sqrResult a = mulResult a a ∧ addResult a b = addResult b a ∧ mulResult a b = mulResult b a ∧
    subResult a b = cnegResult (bits256 (subResult b a)) true ∧ subResult a a = 0 ∧
    addResult a 0 = r ∧ mulResult a 1 = r ∧ mul32Result a = mulResult a (bits256 121666) ∧
    (a.toNat < p → hlvResult (bits256 (addResult a a)) = a.toNat)

/-! ### The seven commands -/

/-- spec/41_field_ops.md R101: ADD, for every choice of registers and every state: its word, its result, its frame. -/
def Obligations.AddWritesReducedSum : Prop :=
  ∀ (rd ra rb : RegIx) (s : State),
    decode (BitVec.ofNat 32 (rb.val * 2 ^ 12 + ra.val * 2 ^ 8 + rd.val * 2 ^ 4 + 0x1)) = .ok (.add rd ra rb) ∧
    ∃ t, exec (.add rd ra rb) s = .next t ∧
      t.reg rd = bits256 (modp (((s.reg ra).toNat : Int) + ((s.reg rb).toNat : Int))) ∧
      (t.reg rd).toNat < p ∧ (t.reg rd).toNat ≡ (s.reg ra).toNat + (s.reg rb).toNat [MOD p] ∧
      (∀ j, t.written rd j = true) ∧ CommandFrame rd s t ∧
      (s.fullyWritten ra = true → s.fullyWritten rb = true → t.mark = s.mark)

/-- spec/41_field_ops.md R102: SUB. The difference is signed and its reduction is not negative. -/
def Obligations.SubWritesReducedDifference : Prop :=
  ∀ (rd ra rb : RegIx) (s : State),
    decode (BitVec.ofNat 32 (rb.val * 2 ^ 12 + ra.val * 2 ^ 8 + rd.val * 2 ^ 4 + 0x2)) = .ok (.sub rd ra rb) ∧
    ∃ t, exec (.sub rd ra rb) s = .next t ∧
      t.reg rd = bits256 (modp (((s.reg ra).toNat : Int) - ((s.reg rb).toNat : Int))) ∧
      (t.reg rd).toNat < p ∧ ((t.reg rd).toNat + (s.reg rb).toNat) ≡ (s.reg ra).toNat [MOD p] ∧
      (∀ j, t.written rd j = true) ∧ CommandFrame rd s t ∧
      (s.fullyWritten ra = true → s.fullyWritten rb = true → t.mark = s.mark)

/-- spec/41_field_ops.md R103: MUL. -/
def Obligations.MulWritesReducedProduct : Prop :=
  ∀ (rd ra rb : RegIx) (s : State),
    decode (BitVec.ofNat 32 (rb.val * 2 ^ 12 + ra.val * 2 ^ 8 + rd.val * 2 ^ 4 + 0x3)) = .ok (.mul rd ra rb) ∧
    ∃ t, exec (.mul rd ra rb) s = .next t ∧
      t.reg rd = bits256 (modp (((s.reg ra).toNat : Int) * ((s.reg rb).toNat : Int))) ∧
      (t.reg rd).toNat < p ∧ (t.reg rd).toNat ≡ (s.reg ra).toNat * (s.reg rb).toNat [MOD p] ∧
      (∀ j, t.written rd j = true) ∧ CommandFrame rd s t ∧
      (s.fullyWritten ra = true → s.fullyWritten rb = true → t.mark = s.mark)

/-- spec/41_field_ops.md R104: MUL32, by the fixed constant 121666. -/
def Obligations.Mul32WritesReducedMultiple : Prop :=
  ∀ (rd ra : RegIx) (s : State),
    decode (BitVec.ofNat 32 (ra.val * 2 ^ 8 + rd.val * 2 ^ 4 + 0x4)) = .ok (.mul32 rd ra) ∧
    ∃ t, exec (.mul32 rd ra) s = .next t ∧
      t.reg rd = bits256 (modp (((s.reg ra).toNat : Int) * 121666)) ∧
      (t.reg rd).toNat < p ∧ (t.reg rd).toNat ≡ 121666 * (s.reg ra).toNat [MOD p] ∧
      (∀ j, t.written rd j = true) ∧ CommandFrame rd s t ∧ (s.fullyWritten ra = true → t.mark = s.mark)

/-- spec/41_field_ops.md R105: SQR; its result is that of MUL with the register twice. -/
def Obligations.SqrWritesReducedSquare : Prop :=
  ∀ (rd ra : RegIx) (s : State),
    decode (BitVec.ofNat 32 (ra.val * 2 ^ 8 + rd.val * 2 ^ 4 + 0x5)) = .ok (.sqr rd ra) ∧
    ∃ t, exec (.sqr rd ra) s = .next t ∧
      t.reg rd = bits256 (modp (((s.reg ra).toNat : Int) * ((s.reg ra).toNat : Int))) ∧
      (t.reg rd).toNat < p ∧ (t.reg rd).toNat ≡ (s.reg ra).toNat ^ 2 [MOD p] ∧
      (∃ u, exec (.mul rd ra ra) s = .next u ∧ u.reg rd = t.reg rd) ∧
      (∀ j, t.written rd j = true) ∧ CommandFrame rd s t ∧ (s.fullyWritten ra = true → t.mark = s.mark)

/-- spec/41_field_ops.md R106: HLV, by the inverse of 2; doubling the result gives the operand's residue, and the result
is the half of the residue or of the residue plus p, never a shift of the operand. -/
def Obligations.HlvWritesFieldHalf : Prop :=
  ∀ (rd ra : RegIx) (s : State),
    decode (BitVec.ofNat 32 (ra.val * 2 ^ 8 + rd.val * 2 ^ 4 + 0x6)) = .ok (.hlv rd ra) ∧
    ∃ t, exec (.hlv rd ra) s = .next t ∧
      t.reg rd = bits256 (modp (((s.reg ra).toNat : Int) * ((2 ^ 254 - 9 : Nat) : Int))) ∧
      (t.reg rd).toNat < p ∧ 2 * (t.reg rd).toNat ≡ (s.reg ra).toNat [MOD p] ∧
      2 * (t.reg rd).toNat = (s.reg ra).toNat % p + (if (s.reg ra).toNat % p % 2 = 0 then 0 else p) ∧
      (∀ j, t.written rd j = true) ∧ CommandFrame rd s t ∧ (s.fullyWritten ra = true → t.mark = s.mark)

/-- spec/41_field_ops.md R107: CNEG. With cond = 0 it writes the residue; with cond = 1 its negation, which is zero for
a residue of zero (spec/90_conflicts.md C2). -/
def Obligations.CnegWritesResidueOrNegation : Prop :=
  ∀ (rd ra : RegIx) (cond : Bool) (s : State) (r : Nat), r = (s.reg ra).toNat % p →
    decode (BitVec.ofNat 32 (cond.toNat * 2 ^ 16 + ra.val * 2 ^ 8 + rd.val * 2 ^ 4 + 0x7)) = .ok (.cneg rd ra cond) ∧
    ∃ t, exec (.cneg rd ra cond) s = .next t ∧
      t.reg rd = bits256 (if cond = false then r else modp ((p : Int) - (r : Int))) ∧
      (t.reg rd).toNat < p ∧ (cond = false → (t.reg rd).toNat = r) ∧
      (cond = true → (t.reg rd).toNat = if r = 0 then 0 else p - r) ∧
      (∀ j, t.written rd j = true) ∧ CommandFrame rd s t ∧ (s.fullyWritten ra = true → t.mark = s.mark)

/-- spec/41_field_ops.md R100: a decoded command written to CMD completes in one step. It writes its destination, all
256 bits and all written flags, and changes nothing else but the port's two ends and, for an unwritten source, the mark;
in the outcome of spec/60_exceptions.md R147 that is the fault UnwrittenSource of a source that is not fully written. -/
def Obligations.CommandWritesOnlyItsDestination : Prop :=
  ∀ (s : State) (w : Word) (rest : List HostEvent) (i : Instr),
    s.rstN = true → s.pending = bw 0x200 w :: rest → decode w = .ok i →
    (∃ t, step s = .next t ∧ CommandFrame i.dest { s with pending := rest, answer := .done } t ∧
      (∀ j, t.written i.dest j = true) ∧
      ((∀ r ∈ i.sources, s.fullyWritten r = true) → t.mark = s.mark ∧ (s.mark = none → strictOutcome s = .next t))) ∧
    (s.mark = none → ∀ r ∈ i.sources, s.fullyWritten r = false →
      ∃ q ∈ i.sources, s.fullyWritten q = false ∧ strictOutcome s = .fault (.unwrittenSource q))

/-- spec/40_field_model.md R84: no command writes a value outside [0, p), so bit 255 of its destination is 0. -/
def Obligations.CommandResultsAreCanonical : Prop :=
  ∀ (i : Instr) (s t : State), exec i s = .next t →
    (t.reg i.dest).toNat < p ∧ (t.reg i.dest).getLsbD 255 = false

/-- spec/40_field_model.md R83 (its derived part): every result depends on the residues of the operands alone, so a
non-canonical operand gives what its canonical representative gives. -/
def Obligations.ResultsDependOnResiduesAlone : Prop :=
  ∀ (i : Instr) (s s' : State), (∀ r ∈ i.sources, (s.reg r).toNat ≡ (s'.reg r).toNat [MOD p]) →
    ∃ t t', exec i s = .next t ∧ exec i s' = .next t' ∧ t.reg i.dest = t'.reg i.dest

/-- spec/70_reset_and_hazards.md R165: every form with two equal registers (rd = ra, rd = rb, ra = rb, or all three)
computes its formula on the values held before the command, and the four examples of the rule. -/
def Obligations.AliasedCommandsUseOldValues : Prop :=
  ∀ (r : RegIx) (s : State) (x : Nat), x = (s.reg r).toNat →
    (∃ t, exec (.mul32 r r) s = .next t ∧ (t.reg r).toNat = 121666 * x % p) ∧
    (∃ t, exec (.sqr r r) s = .next t ∧ (t.reg r).toNat = x ^ 2 % p) ∧
    (∃ t, exec (.hlv r r) s = .next t ∧ (t.reg r).toNat = (2 ^ 254 - 9) * x % p) ∧
    (∃ t, exec (.cneg r r false) s = .next t ∧ (t.reg r).toNat = x % p) ∧
    (∃ t, exec (.cneg r r true) s = .next t ∧ (t.reg r).toNat = (p - x % p) % p) ∧
    (∃ t, exec (.add r r r) s = .next t ∧ (t.reg r).toNat = 2 * x % p) ∧
    (∃ t, exec (.sub r r r) s = .next t ∧ t.reg r = 0) ∧
    (∃ t, exec (.mul r r r) s = .next t ∧ (t.reg r).toNat = x ^ 2 % p) ∧
    ∀ (q : RegIx) (y : Nat), y = (s.reg q).toNat →
      (∃ t, exec (.add r r q) s = .next t ∧ (t.reg r).toNat = (x + y) % p) ∧
      (∃ t, exec (.add r q r) s = .next t ∧ (t.reg r).toNat = (y + x) % p) ∧
      (∃ t, exec (.add q r r) s = .next t ∧ (t.reg q).toNat = 2 * x % p) ∧
      (∃ t, exec (.sub r r q) s = .next t ∧ ((t.reg r).toNat : Int) = ((x : Int) - (y : Int)) % p) ∧
      (∃ t, exec (.sub r q r) s = .next t ∧ ((t.reg r).toNat : Int) = ((y : Int) - (x : Int)) % p) ∧
      (∃ t, exec (.sub q r r) s = .next t ∧ t.reg q = 0) ∧
      (∃ t, exec (.mul r r q) s = .next t ∧ (t.reg r).toNat = x * y % p) ∧
      (∃ t, exec (.mul r q r) s = .next t ∧ (t.reg r).toNat = y * x % p) ∧
      (∃ t, exec (.mul q r r) s = .next t ∧ (t.reg q).toNat = x ^ 2 % p)

/-- spec/40_field_model.md R84 and spec/10_state.md R21 over the whole machine: a register that held a canonical value
and holds another was written by the host in that step, or reset. -/
def Obligations.OnlyTheHostWritesNonCanonicalValues : Prop :=
  ∀ (s t : State) (i : RegIx), step s = .next t → (s.reg i).toNat < p → ¬ (t.reg i).toNat < p →
    (∃ j v rest, s.pending = bw (limbOffset i j) v :: rest) ∨ (∃ level rest, s.pending = .rst level :: rest)

/-! ### The host port -/

/-- When the host's next event writes a word to CMD that decodes to a command, the step is that command's meaning, on the
state without the event and with the normal response given; the same of the state the opcode table's words are placed
in. -/
def Obligations.StepRunsTheDecodedCommand : Prop :=
  (∀ (s : State) (w : Word) (rest : List HostEvent) (i : Instr),
    s.rstN = true → s.pending = bw 0x200 w :: rest → decode w = .ok i →
    step s = exec i { s with pending := rest, answer := .done }) ∧
  (∀ (s : State) (nbits w : Nat) (i : Instr), decodeTableWord nbits w = some i →
    step (s.withFetchWord nbits w) = exec i { s with rstN := true, answer := .done })

/-- spec/10_state.md R26: a read of CMD returns zero and does nothing else; every word written to CMD is executed or
rejected, in one step, with a normal response. -/
def Obligations.CmdSubmitsEveryWord : Prop :=
  ∀ (s : State) (rest : List HostEvent), s.rstN = true →
    (s.pending = br 0x200 :: rest → step s = .next { s with pending := rest, answer := .data 0x00000000 }) ∧
    (∀ w, s.pending = bw 0x200 w :: rest → ∃ t, step s = .next t ∧ t.answer = .done ∧
      ((∃ i, decode w = .ok i ∧ exec i { s with pending := rest, answer := .done } = .next t) ∨
       (∃ c, decode w = .error c ∧ t = ({ s with pending := rest, answer := .done } : State).recordCmdError c w)))

/-- spec/20_memory.md R42: the register window. A write sets one limb as written and leaves the other seven, every other
register, STATUS and ERRCMD; a read returns the limb and changes nothing; in the outcome of R147 a read of an unwritten
limb is the fault UnwrittenRead. Every byte of the window outside the four written ones is unchanged. -/
def Obligations.RegisterWindowReadsAndWritesLimbs : Prop :=
  ∀ (s : State) (off : Offset) (rest : List HostEvent) (i : RegIx) (j : LimbIx),
    s.rstN = true → off.toNat ≤ 0x1FF → off.toNat % 4 = 0 → i.val = off.toNat / 32 → j.val = off.toNat / 4 % 8 →
    (∀ v, s.pending = bw off v :: rest → ∃ t, step s = .next t ∧
      t.limb i j = v ∧ (∀ k, k ≠ j → t.limb i k = s.limb i k) ∧ (∀ r, r ≠ i → t.reg r = s.reg r) ∧
      (∀ b : Fin 512, b.val < off.toNat ∨ off.toNat + 4 ≤ b.val → t.windowByte b = s.windowByte b) ∧
      t.written i j = true ∧ (∀ r k, (r, k) ≠ (i, j) → t.written r k = s.written r k) ∧
      t.err = s.err ∧ t.cause = s.cause ∧ t.multi = s.multi ∧ t.errcmd = s.errcmd ∧ t.mark = s.mark ∧
      t.rstN = s.rstN ∧ t.pending = rest ∧ t.answer = .done) ∧
    (s.pending = br off :: rest →
      (s.written i j = true → step s = .next { s with pending := rest, answer := .data (s.limb i j) }) ∧
      (s.written i j = false → s.mark = none → strictOutcome s = .fault (.unwrittenRead i j)))

/-- spec/20_memory.md R48 on one limb: a read of an offset of the window right after a write of it returns the word
written, whatever the register held. -/
def Obligations.LimbReadAfterWriteReturnsIt : Prop :=
  ∀ (s : State) (i : RegIx) (j : LimbIx) (v : Word) (rest : List HostEvent), s.rstN = true →
    s.pending = bw (limbOffset i j) v :: br (limbOffset i j) :: rest →
    ∃ t, run 2 s = .next t ∧ t.answer = .data v ∧ t.pending = rest ∧ t.mark = s.mark

/-- spec/10_state.md R22: a register is its eight limbs, limb 0 the least significant. -/
def Obligations.RegisterIsItsEightLimbs : Prop :=
  ∀ (s : State) (i : RegIx),
    s.reg i = s.limb i 7 ++ s.limb i 6 ++ s.limb i 5 ++ s.limb i 4 ++ s.limb i 3 ++ s.limb i 2 ++ s.limb i 1 ++ s.limb i 0 ∧
    (s.reg i).toNat = ∑ j : LimbIx, (s.limb i j).toNat * 2 ^ (32 * j.val)

/-- spec/20_memory.md R45: in the host's byte view a register is little-endian: byte b of F[i] is its bits
[8b+7 : 8b]. -/
def Obligations.WindowBytesAreLittleEndian : Prop :=
  ∀ (s : State) (i : RegIx) (b : Fin 32) (at_ : Fin 512), at_.val = 0x20 * i.val + b.val →
    s.windowByte at_ = (s.reg i).extractLsb' (8 * b.val) 8

/-- spec/30_encoding.md R70 (`ldf`, `stf`) and spec/10_state.md R21: eight limb writes load a 256-bit value, canonical or
not, as it stands, and touch no other register; the reads of `stf` then show its limbs in order. -/
def Obligations.LoadSequenceStoresTheValueAsWritten : Prop :=
  ∀ (s : State) (i : RegIx) (v : FieldWord) (rest : List HostEvent), s.rstN = true →
    (s.pending = ldf i v ++ rest →
      ∃ t, run 8 s = .next t ∧ t.reg i = v ∧ t.fullyWritten i = true ∧
        (∀ k, k ≠ i → t.reg k = s.reg k ∧ ∀ j, t.written k j = s.written k j) ∧
        t.err = s.err ∧ t.cause = s.cause ∧ t.multi = s.multi ∧ t.errcmd = s.errcmd ∧ t.mark = s.mark ∧
        t.rstN = true ∧ t.pending = rest) ∧
    (s.pending = stf i ++ rest → s.fullyWritten i = true →
      ∀ k : LimbIx, ∃ t, run (k.val + 1) s = .next t ∧ t.answer = .data (s.limb i k) ∧ t.reg i = s.reg i)

/-- spec/30_encoding.md R70: `red` and `neg` compute the canonical residue and the residue of the negation. -/
def Obligations.PseudoInstructionsRedAndNeg : Prop :=
  ∀ (fd fa : RegIx) (s : State),
    (∃ t, exec (red fd fa) s = .next t ∧ t.reg fd = bits256 (modp ((s.reg fa).toNat : Int))) ∧
    (∃ t, exec (neg fd fa) s = .next t ∧ t.reg fd = bits256 (modp (-((s.reg fa).toNat : Int))))

/-! ### Errors -/

/-- spec/60_exceptions.md R143, with the codes of R141: a rejected word changes the status alone. The first error is
kept; a further one sets MULTI. -/
def Obligations.RejectedWordIsRecorded : Prop :=
  (CmdError.illegalOpcode.code = 0b01 ∧ CmdError.reservedNonzero.code = 0b10 ∧
    CmdError.unusedFieldNonzero.code = 0b11) ∧
  ∀ (s : State) (w : Word) (rest : List HostEvent) (c : CmdError),
    s.rstN = true → s.pending = bw 0x200 w :: rest → decode w = .error c →
    (s.err = false → step s = .next
      { s with pending := rest, answer := .done, err := true, cause := c.code, errcmd := w }) ∧
    (s.err = true → step s = .next { s with pending := rest, answer := .done, multi := true })

/-- spec/60_exceptions.md R145: ERR, CAUSE, ERRCMD and MULTI stay until the host writes STATUS with bit 0 = 1 or resets
the block, and until then every command does what it would do without them. -/
def Obligations.ErrorsStayUntilClearedAndStopNothing : Prop :=
  (∀ s t : State, step s = .next t → s.err = true →
    (t.err = true ∧ t.cause = s.cause ∧ t.errcmd = s.errcmd ∧ (s.multi = true → t.multi = true)) ∨
    (∃ v rest, s.pending = bw 0x204 v :: rest ∧ v.getLsbD 0 = true) ∨ (∃ level rest, s.pending = .rst level :: rest)) ∧
  (∀ (i : Instr) (s t : State) (e m : Bool) (c : BitVec 2) (w : Word), exec i s = .next t →
    exec i { s with err := e, cause := c, multi := m, errcmd := w } =
      .next { t with err := e, cause := c, multi := m, errcmd := w })

/-- spec/10_state.md R27: how STATUS reads, the values it can have, its value at reset, that a write acts by its bit 0
alone, and that only a rejected command word sets ERR, CAUSE or MULTI. -/
def Obligations.StatusRegisterFields : Prop :=
  State.reset.statusWord = 0x00000000 ∧
  (∀ (s : State) (rest : List HostEvent), s.rstN = true → s.pending = br 0x204 :: rest →
    ∃ v : Word, step s = .next { s with pending := rest, answer := .data v } ∧
      v.toNat = s.err.toNat + 2 * s.cause.toNat + 8 * s.multi.toNat ∧
      (s.statusInv → v ∈ [0x00000000, 0x00000003, 0x00000005, 0x00000007, 0x0000000B, 0x0000000D, 0x0000000F])) ∧
  (∀ (s : State) (v v' : Word) (rest : List HostEvent), s.rstN = true → v.getLsbD 0 = v'.getLsbD 0 →
    step { s with pending := bw 0x204 v :: rest } = step { s with pending := bw 0x204 v' :: rest }) ∧
  (∀ s t : State, step s = .next t →
    (s.err = false ∧ t.err = true) ∨ (s.multi = false ∧ t.multi = true) ∨ (s.cause ≠ t.cause ∧ t.cause ≠ 0b00) →
    ∃ w c rest, s.pending = bw 0x200 w :: rest ∧ decode w = .error c)

/-- spec/10_state.md R28: a write of STATUS with bit 0 = 1 clears ERR, CAUSE, MULTI and ERRCMD; with bit 0 = 0 it changes
nothing. -/
def Obligations.StatusWriteOneClears : Prop :=
  ∀ (s : State) (v : Word) (rest : List HostEvent), s.rstN = true → s.pending = bw 0x204 v :: rest →
    (v.toNat % 2 = 1 → step s = .next
      { s with pending := rest, answer := .done, err := false, cause := 0b00, multi := false, errcmd := 0x00000000 }) ∧
    (v.toNat % 2 = 0 → step s = .next { s with pending := rest, answer := .done })

/-- spec/10_state.md R29: ERRCMD reads as it stands and a write of it is ignored; a word rejected while ERR is 0 is put
into it, and one rejected while ERR is 1 is not; it is zero at reset, and every step from a state with the invariant of
the status registers leaves it zero where it leaves ERR 0; only a first rejected word, a clearing write of STATUS or a
reset changes it. -/
def Obligations.ErrcmdHoldsTheFirstRejectedWord : Prop :=
  (∀ (s : State) (rest : List HostEvent), s.rstN = true →
    (s.pending = br 0x208 :: rest → step s = .next { s with pending := rest, answer := .data s.errcmd }) ∧
    (∀ v, s.pending = bw 0x208 v :: rest → step s = .next { s with pending := rest, answer := .done })) ∧
  (∀ (s : State) (w : Word) (rest : List HostEvent) (c : CmdError),
    s.rstN = true → s.pending = bw 0x200 w :: rest → decode w = .error c →
    ∃ t, step s = .next t ∧ t.err = true ∧ (s.err = false → t.errcmd = w) ∧ (s.err = true → t.errcmd = s.errcmd)) ∧
  (State.reset.err = false ∧ State.reset.errcmd = 0x00000000) ∧
  (∀ s t : State, s.statusInv → stateAfter (step s) = some t → t.err = false → t.errcmd = 0x00000000) ∧
  (∀ s t : State, step s = .next t → t.errcmd ≠ s.errcmd →
    (∃ c rest, s.pending = bw 0x200 t.errcmd :: rest ∧ s.err = false ∧ decode t.errcmd = .error c) ∨
    (∃ v rest, s.pending = bw 0x204 v :: rest ∧ v.getLsbD 0 = true) ∨ (∃ level rest, s.pending = .rst level :: rest))

/-- spec/20_memory.md R43: an access of another width than 32 bits, with a byte strobe other than all four lanes, or at
an offset that is no multiple of 4, is answered with the bus error BadWidthOrAlignment, at CMD too: the error response is
given, the mark records the fault (R147) and nothing else changes. That such an access has this kind at an unmapped
offset too, where R44 alone says Unmapped, is the model's choice (log entry 6). -/
def Obligations.BadWidthOrAlignmentIsABusError : Prop :=
  ∀ (s : State) (width : AccessWidth) (off : Offset) (rest : List HostEvent), s.rstN = true →
    (width ≠ .bits32 ∨ off.toNat % 4 ≠ 0 → s.pending = .read width off :: rest →
      strictOutcome s = .fault (.busError .badWidthOrAlignment off) ∧
      step s = .fault (.busError .badWidthOrAlignment off { s with
        pending := rest, answer := .error, mark := s.mark.or (some (.busError .badWidthOrAlignment off)) })) ∧
    (∀ (strobe : BitVec 4) (v : Word), width ≠ .bits32 ∨ strobe ≠ 0b1111 ∨ off.toNat % 4 ≠ 0 →
      s.pending = .write width strobe off v :: rest →
      strictOutcome s = .fault (.busError .badWidthOrAlignment off) ∧
      step s = .fault (.busError .badWidthOrAlignment off { s with
        pending := rest, answer := .error, mark := s.mark.or (some (.busError .badWidthOrAlignment off)) }))

/-- spec/20_memory.md R44, for accesses of 32 bits at a multiple of 4 (which kind an access has that breaks R43 too is
the model's choice, log entry 6): an offset from 0x20C up is answered with the bus error Unmapped: the error response is
given, the mark records the fault (R147) and nothing else changes. -/
def Obligations.UnmappedOffsetIsABusError : Prop :=
  ∀ (s : State) (off : Offset) (rest : List HostEvent), s.rstN = true → 0x20C ≤ off.toNat → off.toNat % 4 = 0 →
    (s.pending = br off :: rest ∨ ∃ v, s.pending = bw off v :: rest) →
      strictOutcome s = .fault (.busError .unmapped off) ∧
      step s = .fault (.busError .unmapped off { s with
        pending := rest, answer := .error, mark := s.mark.or (some (.busError .unmapped off)) })

/-- spec/93_implementation_defined.md section 2 with spec/20_memory.md R41 to R44 and R54: a step stops with a fault
exactly at an access the block does not accept, is refused exactly at an access in reset, and completes otherwise. That it
completes at an unwritten limb or source, where R23, R42 and R147 let a model fault (`strictOutcome` does), is the
model's choice (log entry 2); that an access in reset is refused is log entry 7. -/
def Obligations.StepsStopOnlyAtUnacceptedAccesses : Prop :=
  ∀ s : State,
    ((∃ x, step s = .fault x) ↔ s.rstN = true ∧ ∃ e rest, s.pending = e :: rest ∧ ¬ accepted e) ∧
    ((∃ r, step s = .refused r) ↔ s.rstN = false ∧ ∃ e rest, s.pending = e :: rest ∧ isAccess e)

/-- spec/60_exceptions.md R154, spec/70_reset_and_hazards.md R162: with nothing pending the block is idle and nothing
changes. -/
def Obligations.IdleBlockChangesNothing : Prop :=
  ∀ s : State, s.pending = [] → ∀ n, run n s = .next s

/-- spec/20_memory.md R40: the 4096 bytes from BASE on are the aperture, whatever 4096-byte-aligned address BASE is. -/
def Obligations.ApertureIsFourKilobytesAtBase : Prop :=
  Config.base % 4096 = 0 ∧ (∀ off : Offset, busOffset (Config.base + off.toNat) = some off) ∧
  (∀ addr, addr < Config.base ∨ Config.base + 0xFFF < addr → busOffset addr = none)

/-! ### Written flags and the fault mark -/

/-- spec/10_state.md R23, with R147's outcome for the faults it raises: what sets and clears the written flags, that a
host read of an unwritten limb and a command with an incompletely written source are model faults, and that a rejected
word never is one. That the machine itself goes on past such a read with what the register holds, as R23 says of the
chip, is the model's choice (log entry 2). -/
def Obligations.WrittenFlagsFollowTheirRule : Prop :=
  ∀ (s : State) (rest : List HostEvent),
    (s.pending = .rst false :: rest → ∃ t, step s = .next t ∧ ∀ i j, t.written i j = false) ∧
    (s.rstN = true →
      (∀ i j v, s.pending = bw (limbOffset i j) v :: rest → ∃ t, step s = .next t ∧
        ∀ r k, t.written r k = (decide ((r, k) = (i, j)) || s.written r k)) ∧
      (∀ w i, s.pending = bw 0x200 w :: rest → decode w = .ok i → ∃ t, step s = .next t ∧
        ∀ r k, t.written r k = (decide (r = i.dest) || s.written r k)) ∧
      (s.mark = none → ∀ i j, s.pending = br (limbOffset i j) :: rest → s.written i j = false →
        strictOutcome s = .fault (.unwrittenRead i j) ∧
        ∃ t, step s = .next t ∧ t.answer = .data (s.limb i j)) ∧
      (s.mark = none → ∀ w i r, s.pending = bw 0x200 w :: rest → decode w = .ok i → r ∈ i.sources →
        s.fullyWritten r = false →
        (∃ q ∈ i.sources, s.fullyWritten q = false ∧ strictOutcome s = .fault (.unwrittenSource q)) ∧
        ∃ t, step s = .next t ∧ ∃ u, exec i s = .next u ∧ t.reg i.dest = u.reg i.dest) ∧
      (s.mark = none → ∀ w c, s.pending = bw 0x200 w :: rest → decode w = .error c →
        ∃ t, strictOutcome s = .next t ∧ t.w = s.w))

/-- spec/60_exceptions.md R147: every bus error is recorded in the mark of the state it leaves, and no later step clears
the mark, a reset included, even in a run that goes on past bus errors as the chip does; so a run that ends with it clear
never had it set. -/
def Obligations.FaultMarkIsNeverCleared : Prop :=
  (∀ (s t : State) (kind : BusErrorKind) (off : Offset), step s = .fault (.busError kind off t) →
    t.mark = s.mark.or (some (.busError kind off)) ∧ ¬ t.good) ∧
  (∀ (n : Nat) (s t : State) (m : ModelFault), run n s = .next t → s.mark = some m → t.mark = some m) ∧
  (∀ (n : Nat) (s t : State) (m : ModelFault), runOn n s = some t → s.mark = some m → t.mark = some m)

/-- spec/10_state.md R23 and R33 as a property of every run: what a limb that nothing has written holds (which the spec
leaves open and the model fixes, log entry 1) reaches no answer, no register that counts as written and no status, unless
the run ends with the mark set. -/
def Obligations.UnwrittenLimbsNeverReachAGoodRun : Prop :=
  ∀ (n : Nat) (s t s' : State), AgreeOnWritten s t → run n s = .next s' → s'.good →
    ∃ t', run n t = .next t' ∧ AgreeOnWritten s' t'

/-! ### Whole machine -/

/-- spec/10_state.md R27, R29 and spec/70_reset_and_hazards.md R160: the reset state has the invariant (its clause on a
block held in reset, log entry 8, asks nothing of it). -/
def Obligations.InvariantHoldsAtReset : Prop := State.reset.inv

/-- spec/10_state.md R27, R29 and spec/70_reset_and_hazards.md R160: every step keeps the invariant: the legal values of
STATUS and ERRCMD, ERRCMD a word that is no command with CAUSE the code of its rejection, and a block held in reset with
the status and written flags of reset and no response standing. So does the state a bus error leaves. That the reset
values hold from the falling level on, and that no response stands in reset, is the model's choice (log entry 8). -/
def Obligations.EveryStepKeepsTheInvariant : Prop :=
  ∀ s t : State, s.inv → stateAfter (step s) = some t → t.inv

/-- spec/20_memory.md R48: the effect of a run is the effect of its events applied one by one in the order of acceptance;
what stands behind them in the queue has no part in it. First for runs that go on past bus errors as the chip does; then
for runs that stop at one (log entry 5): the outcomes are equal up to the queue of the state they leave, which is `rest`
after a run that answers a next state and still holds the events not reached after one that a bus error stops. -/
def Obligations.RunIsItsEventsInOrder : Prop :=
  ∀ (es rest : List HostEvent) (s : State), s.pending = es ++ rest →
    runOn es.length s = runEventsOn es { s with pending := rest } ∧
    withQueue rest (run es.length s) = runEvents es { s with pending := rest } ∧
    (∀ t, run es.length s = .next t → t.pending = rest) ∧
    (∀ kind off t, run es.length s = .fault (.busError kind off t) →
      ∃ done e left, es = done ++ e :: left ∧ isAccess e ∧ ¬ accepted e ∧ t.pending = left ++ rest)
end

