-- ==== Sys2Proof/Laws/State.lean ====
section
/-! SUPPORT. Every update of the state, read field by field, and as registers and written flags. Later proofs rewrite
with these and unfold no update. -/

namespace Sys2Proof.Machine

/-! ### The conditional updates as one record update -/

theorem State.raise_eq (s : State) (m : ModelFault) : s.raise m = { s with mark := s.mark.or (some m) } := by
  unfold State.raise
  split <;> rename_i h <;> simp [h]
  cases s
  simp_all

theorem State.noteSources_eq (s : State) (l : List RegIx) :
    s.noteSources l = { s with mark := s.mark.or ((s.unwrittenSource? l).map .unwrittenSource) } := by
  unfold State.noteSources
  split <;> rename_i h <;> simp [h, State.raise_eq]

theorem State.noteRead_eq (s : State) (i : RegIx) (j : LimbIx) :
    s.noteRead i j = { s with mark := if s.written i j then s.mark else s.mark.or (some (.unwrittenRead i j)) } := by
  unfold State.noteRead
  split <;> simp [State.raise_eq]

theorem State.rejectAccess_eq (s : State) (k : BusErrorKind) (off : Offset) :
    s.rejectAccess k off = { s with answer := .error, mark := s.mark.or (some (.busError k off)) } := by
  simp [State.rejectAccess, State.raise_eq, State.respond]

/-! ### One lemma per field per update -/

@[simp] theorem State.writeReg_f (s : State) (i : RegIx) (v : FieldWord) : (s.writeReg i v).f = s.f.set i.val v := rfl
@[simp] theorem State.writeReg_w (s : State) (i : RegIx) (v : FieldWord) : (s.writeReg i v).w = s.w.set i.val (Vector.replicate 8 true) := rfl
@[simp] theorem State.writeReg_err (s : State) (i : RegIx) (v : FieldWord) : (s.writeReg i v).err = s.err := rfl
@[simp] theorem State.writeReg_cause (s : State) (i : RegIx) (v : FieldWord) : (s.writeReg i v).cause = s.cause := rfl
@[simp] theorem State.writeReg_multi (s : State) (i : RegIx) (v : FieldWord) : (s.writeReg i v).multi = s.multi := rfl
@[simp] theorem State.writeReg_errcmd (s : State) (i : RegIx) (v : FieldWord) : (s.writeReg i v).errcmd = s.errcmd := rfl
@[simp] theorem State.writeReg_mark (s : State) (i : RegIx) (v : FieldWord) : (s.writeReg i v).mark = s.mark := rfl
@[simp] theorem State.writeReg_rstN (s : State) (i : RegIx) (v : FieldWord) : (s.writeReg i v).rstN = s.rstN := rfl
@[simp] theorem State.writeReg_pending (s : State) (i : RegIx) (v : FieldWord) : (s.writeReg i v).pending = s.pending := rfl
@[simp] theorem State.writeReg_answer (s : State) (i : RegIx) (v : FieldWord) : (s.writeReg i v).answer = s.answer := rfl

@[simp] theorem State.writeLimb_f (s : State) (i : RegIx) (j : LimbIx) (v : Word) : (s.writeLimb i j v).f = s.f.set i.val (withLimb (s.reg i) j v) := rfl
@[simp] theorem State.writeLimb_w (s : State) (i : RegIx) (j : LimbIx) (v : Word) : (s.writeLimb i j v).w = s.w.set i.val (s.w[i.val].set j.val true) := rfl
@[simp] theorem State.writeLimb_err (s : State) (i : RegIx) (j : LimbIx) (v : Word) : (s.writeLimb i j v).err = s.err := rfl
@[simp] theorem State.writeLimb_cause (s : State) (i : RegIx) (j : LimbIx) (v : Word) : (s.writeLimb i j v).cause = s.cause := rfl
@[simp] theorem State.writeLimb_multi (s : State) (i : RegIx) (j : LimbIx) (v : Word) : (s.writeLimb i j v).multi = s.multi := rfl
@[simp] theorem State.writeLimb_errcmd (s : State) (i : RegIx) (j : LimbIx) (v : Word) : (s.writeLimb i j v).errcmd = s.errcmd := rfl
@[simp] theorem State.writeLimb_mark (s : State) (i : RegIx) (j : LimbIx) (v : Word) : (s.writeLimb i j v).mark = s.mark := rfl
@[simp] theorem State.writeLimb_rstN (s : State) (i : RegIx) (j : LimbIx) (v : Word) : (s.writeLimb i j v).rstN = s.rstN := rfl
@[simp] theorem State.writeLimb_pending (s : State) (i : RegIx) (j : LimbIx) (v : Word) : (s.writeLimb i j v).pending = s.pending := rfl
@[simp] theorem State.writeLimb_answer (s : State) (i : RegIx) (j : LimbIx) (v : Word) : (s.writeLimb i j v).answer = s.answer := rfl

@[simp] theorem State.respond_f (s : State) (a : Answer) : (s.respond a).f = s.f := rfl
@[simp] theorem State.respond_w (s : State) (a : Answer) : (s.respond a).w = s.w := rfl
@[simp] theorem State.respond_err (s : State) (a : Answer) : (s.respond a).err = s.err := rfl
@[simp] theorem State.respond_cause (s : State) (a : Answer) : (s.respond a).cause = s.cause := rfl
@[simp] theorem State.respond_multi (s : State) (a : Answer) : (s.respond a).multi = s.multi := rfl
@[simp] theorem State.respond_errcmd (s : State) (a : Answer) : (s.respond a).errcmd = s.errcmd := rfl
@[simp] theorem State.respond_mark (s : State) (a : Answer) : (s.respond a).mark = s.mark := rfl
@[simp] theorem State.respond_rstN (s : State) (a : Answer) : (s.respond a).rstN = s.rstN := rfl
@[simp] theorem State.respond_pending (s : State) (a : Answer) : (s.respond a).pending = s.pending := rfl
@[simp] theorem State.respond_answer (s : State) (a : Answer) : (s.respond a).answer = a := rfl

@[simp] theorem State.clearErrors_f (s : State) : (s.clearErrors).f = s.f := rfl
@[simp] theorem State.clearErrors_w (s : State) : (s.clearErrors).w = s.w := rfl
@[simp] theorem State.clearErrors_err (s : State) : (s.clearErrors).err = false := rfl
@[simp] theorem State.clearErrors_cause (s : State) : (s.clearErrors).cause = 0 := rfl
@[simp] theorem State.clearErrors_multi (s : State) : (s.clearErrors).multi = false := rfl
@[simp] theorem State.clearErrors_errcmd (s : State) : (s.clearErrors).errcmd = 0 := rfl
@[simp] theorem State.clearErrors_mark (s : State) : (s.clearErrors).mark = s.mark := rfl
@[simp] theorem State.clearErrors_rstN (s : State) : (s.clearErrors).rstN = s.rstN := rfl
@[simp] theorem State.clearErrors_pending (s : State) : (s.clearErrors).pending = s.pending := rfl
@[simp] theorem State.clearErrors_answer (s : State) : (s.clearErrors).answer = s.answer := rfl

@[simp] theorem State.resetBlock_f (s : State) : (s.resetBlock).f = State.reset.f := rfl
@[simp] theorem State.resetBlock_w (s : State) : (s.resetBlock).w = State.reset.w := rfl
@[simp] theorem State.resetBlock_err (s : State) : (s.resetBlock).err = false := rfl
@[simp] theorem State.resetBlock_cause (s : State) : (s.resetBlock).cause = 0 := rfl
@[simp] theorem State.resetBlock_multi (s : State) : (s.resetBlock).multi = false := rfl
@[simp] theorem State.resetBlock_errcmd (s : State) : (s.resetBlock).errcmd = 0 := rfl
@[simp] theorem State.resetBlock_mark (s : State) : (s.resetBlock).mark = s.mark := rfl
@[simp] theorem State.resetBlock_rstN (s : State) : (s.resetBlock).rstN = s.rstN := rfl
@[simp] theorem State.resetBlock_pending (s : State) : (s.resetBlock).pending = s.pending := rfl
@[simp] theorem State.resetBlock_answer (s : State) : (s.resetBlock).answer = .none := rfl

@[simp] theorem State.raise_f (s : State) (m : ModelFault) : (s.raise m).f = s.f := by rw [State.raise_eq]
@[simp] theorem State.raise_w (s : State) (m : ModelFault) : (s.raise m).w = s.w := by rw [State.raise_eq]
@[simp] theorem State.raise_err (s : State) (m : ModelFault) : (s.raise m).err = s.err := by rw [State.raise_eq]
@[simp] theorem State.raise_cause (s : State) (m : ModelFault) : (s.raise m).cause = s.cause := by rw [State.raise_eq]
@[simp] theorem State.raise_multi (s : State) (m : ModelFault) : (s.raise m).multi = s.multi := by rw [State.raise_eq]
@[simp] theorem State.raise_errcmd (s : State) (m : ModelFault) : (s.raise m).errcmd = s.errcmd := by rw [State.raise_eq]
@[simp] theorem State.raise_mark (s : State) (m : ModelFault) : (s.raise m).mark = s.mark.or (some m) := by rw [State.raise_eq]
@[simp] theorem State.raise_rstN (s : State) (m : ModelFault) : (s.raise m).rstN = s.rstN := by rw [State.raise_eq]
@[simp] theorem State.raise_pending (s : State) (m : ModelFault) : (s.raise m).pending = s.pending := by rw [State.raise_eq]
@[simp] theorem State.raise_answer (s : State) (m : ModelFault) : (s.raise m).answer = s.answer := by rw [State.raise_eq]

@[simp] theorem State.rejectAccess_f (s : State) (k : BusErrorKind) (off : Offset) : (s.rejectAccess k off).f = s.f := by rw [State.rejectAccess_eq]
@[simp] theorem State.rejectAccess_w (s : State) (k : BusErrorKind) (off : Offset) : (s.rejectAccess k off).w = s.w := by rw [State.rejectAccess_eq]
@[simp] theorem State.rejectAccess_err (s : State) (k : BusErrorKind) (off : Offset) : (s.rejectAccess k off).err = s.err := by rw [State.rejectAccess_eq]
@[simp] theorem State.rejectAccess_cause (s : State) (k : BusErrorKind) (off : Offset) : (s.rejectAccess k off).cause = s.cause := by rw [State.rejectAccess_eq]
@[simp] theorem State.rejectAccess_multi (s : State) (k : BusErrorKind) (off : Offset) : (s.rejectAccess k off).multi = s.multi := by rw [State.rejectAccess_eq]
@[simp] theorem State.rejectAccess_errcmd (s : State) (k : BusErrorKind) (off : Offset) : (s.rejectAccess k off).errcmd = s.errcmd := by rw [State.rejectAccess_eq]
@[simp] theorem State.rejectAccess_rstN (s : State) (k : BusErrorKind) (off : Offset) : (s.rejectAccess k off).rstN = s.rstN := by rw [State.rejectAccess_eq]
@[simp] theorem State.rejectAccess_pending (s : State) (k : BusErrorKind) (off : Offset) : (s.rejectAccess k off).pending = s.pending := by rw [State.rejectAccess_eq]
@[simp] theorem State.rejectAccess_mark (s : State) (k : BusErrorKind) (off : Offset) : (s.rejectAccess k off).mark = s.mark.or (some (.busError k off)) := by rw [State.rejectAccess_eq]
@[simp] theorem State.rejectAccess_answer (s : State) (k : BusErrorKind) (off : Offset) : (s.rejectAccess k off).answer = .error := by rw [State.rejectAccess_eq]

@[simp] theorem State.noteSources_f (s : State) (l : List RegIx) : (s.noteSources l).f = s.f := by rw [State.noteSources_eq]
@[simp] theorem State.noteSources_w (s : State) (l : List RegIx) : (s.noteSources l).w = s.w := by rw [State.noteSources_eq]
@[simp] theorem State.noteSources_err (s : State) (l : List RegIx) : (s.noteSources l).err = s.err := by rw [State.noteSources_eq]
@[simp] theorem State.noteSources_cause (s : State) (l : List RegIx) : (s.noteSources l).cause = s.cause := by rw [State.noteSources_eq]
@[simp] theorem State.noteSources_multi (s : State) (l : List RegIx) : (s.noteSources l).multi = s.multi := by rw [State.noteSources_eq]
@[simp] theorem State.noteSources_errcmd (s : State) (l : List RegIx) : (s.noteSources l).errcmd = s.errcmd := by rw [State.noteSources_eq]
@[simp] theorem State.noteSources_mark (s : State) (l : List RegIx) : (s.noteSources l).mark = s.mark.or ((s.unwrittenSource? l).map .unwrittenSource) := by rw [State.noteSources_eq]
@[simp] theorem State.noteSources_rstN (s : State) (l : List RegIx) : (s.noteSources l).rstN = s.rstN := by rw [State.noteSources_eq]
@[simp] theorem State.noteSources_pending (s : State) (l : List RegIx) : (s.noteSources l).pending = s.pending := by rw [State.noteSources_eq]
@[simp] theorem State.noteSources_answer (s : State) (l : List RegIx) : (s.noteSources l).answer = s.answer := by rw [State.noteSources_eq]

@[simp] theorem State.noteRead_f (s : State) (i : RegIx) (j : LimbIx) : (s.noteRead i j).f = s.f := by rw [State.noteRead_eq]
@[simp] theorem State.noteRead_w (s : State) (i : RegIx) (j : LimbIx) : (s.noteRead i j).w = s.w := by rw [State.noteRead_eq]
@[simp] theorem State.noteRead_err (s : State) (i : RegIx) (j : LimbIx) : (s.noteRead i j).err = s.err := by rw [State.noteRead_eq]
@[simp] theorem State.noteRead_cause (s : State) (i : RegIx) (j : LimbIx) : (s.noteRead i j).cause = s.cause := by rw [State.noteRead_eq]
@[simp] theorem State.noteRead_multi (s : State) (i : RegIx) (j : LimbIx) : (s.noteRead i j).multi = s.multi := by rw [State.noteRead_eq]
@[simp] theorem State.noteRead_errcmd (s : State) (i : RegIx) (j : LimbIx) : (s.noteRead i j).errcmd = s.errcmd := by rw [State.noteRead_eq]
@[simp] theorem State.noteRead_mark (s : State) (i : RegIx) (j : LimbIx) : (s.noteRead i j).mark = if s.written i j then s.mark else s.mark.or (some (.unwrittenRead i j)) := by rw [State.noteRead_eq]
@[simp] theorem State.noteRead_rstN (s : State) (i : RegIx) (j : LimbIx) : (s.noteRead i j).rstN = s.rstN := by rw [State.noteRead_eq]
@[simp] theorem State.noteRead_pending (s : State) (i : RegIx) (j : LimbIx) : (s.noteRead i j).pending = s.pending := by rw [State.noteRead_eq]
@[simp] theorem State.noteRead_answer (s : State) (i : RegIx) (j : LimbIx) : (s.noteRead i j).answer = s.answer := by rw [State.noteRead_eq]

@[simp] theorem State.recordCmdError_f (s : State) (c : CmdError) (v : Word) : (s.recordCmdError c v).f = s.f := by
  unfold State.recordCmdError; split <;> simp_all
@[simp] theorem State.recordCmdError_w (s : State) (c : CmdError) (v : Word) : (s.recordCmdError c v).w = s.w := by
  unfold State.recordCmdError; split <;> simp_all
@[simp] theorem State.recordCmdError_err (s : State) (c : CmdError) (v : Word) : (s.recordCmdError c v).err = true := by
  unfold State.recordCmdError; split <;> simp_all
@[simp] theorem State.recordCmdError_cause (s : State) (c : CmdError) (v : Word) : (s.recordCmdError c v).cause = if s.err then s.cause else c.code := by
  unfold State.recordCmdError; split <;> simp_all
@[simp] theorem State.recordCmdError_multi (s : State) (c : CmdError) (v : Word) : (s.recordCmdError c v).multi = s.err || s.multi := by
  unfold State.recordCmdError; split <;> simp_all
@[simp] theorem State.recordCmdError_errcmd (s : State) (c : CmdError) (v : Word) : (s.recordCmdError c v).errcmd = if s.err then s.errcmd else v := by
  unfold State.recordCmdError; split <;> simp_all
@[simp] theorem State.recordCmdError_mark (s : State) (c : CmdError) (v : Word) : (s.recordCmdError c v).mark = s.mark := by
  unfold State.recordCmdError; split <;> simp_all
@[simp] theorem State.recordCmdError_rstN (s : State) (c : CmdError) (v : Word) : (s.recordCmdError c v).rstN = s.rstN := by
  unfold State.recordCmdError; split <;> simp_all
@[simp] theorem State.recordCmdError_pending (s : State) (c : CmdError) (v : Word) : (s.recordCmdError c v).pending = s.pending := by
  unfold State.recordCmdError; split <;> simp_all
@[simp] theorem State.recordCmdError_answer (s : State) (c : CmdError) (v : Word) : (s.recordCmdError c v).answer = s.answer := by
  unfold State.recordCmdError; split <;> simp_all

@[simp] theorem State.writeStatus_f (s : State) (v : Word) : (s.writeStatus v).f = s.f := by
  unfold State.writeStatus; split <;> simp_all
@[simp] theorem State.writeStatus_w (s : State) (v : Word) : (s.writeStatus v).w = s.w := by
  unfold State.writeStatus; split <;> simp_all
@[simp] theorem State.writeStatus_err (s : State) (v : Word) : (s.writeStatus v).err = (!clearRequested v && s.err) := by
  unfold State.writeStatus; split <;> simp_all
@[simp] theorem State.writeStatus_cause (s : State) (v : Word) : (s.writeStatus v).cause = if clearRequested v then 0 else s.cause := by
  unfold State.writeStatus; split <;> simp_all
@[simp] theorem State.writeStatus_multi (s : State) (v : Word) : (s.writeStatus v).multi = (!clearRequested v && s.multi) := by
  unfold State.writeStatus; split <;> simp_all
@[simp] theorem State.writeStatus_errcmd (s : State) (v : Word) : (s.writeStatus v).errcmd = if clearRequested v then 0 else s.errcmd := by
  unfold State.writeStatus; split <;> simp_all
@[simp] theorem State.writeStatus_mark (s : State) (v : Word) : (s.writeStatus v).mark = s.mark := by
  unfold State.writeStatus; split <;> simp_all
@[simp] theorem State.writeStatus_rstN (s : State) (v : Word) : (s.writeStatus v).rstN = s.rstN := by
  unfold State.writeStatus; split <;> simp_all
@[simp] theorem State.writeStatus_pending (s : State) (v : Word) : (s.writeStatus v).pending = s.pending := by
  unfold State.writeStatus; split <;> simp_all
@[simp] theorem State.writeStatus_answer (s : State) (v : Word) : (s.writeStatus v).answer = s.answer := by
  unfold State.writeStatus; split <;> simp_all

/-- A level that changes nothing leaves the state; any other leaves the reset values with the new level (R160). -/
theorem State.driveReset_eq (s : State) (level : Bool) :
    s.driveReset level = s ∧ level = true ∧ s.rstN = true ∨ s.driveReset level = { s.resetBlock with rstN := level } := by
  unfold State.driveReset
  split <;> simp_all

@[simp] theorem State.driveReset_mark (s : State) (level : Bool) : (s.driveReset level).mark = s.mark := by
  unfold State.driveReset; split <;> rfl
@[simp] theorem State.driveReset_pending (s : State) (level : Bool) : (s.driveReset level).pending = s.pending := by
  unfold State.driveReset; split <;> rfl
@[simp] theorem State.driveReset_rstN (s : State) (level : Bool) : (s.driveReset level).rstN = level := by
  unfold State.driveReset; split <;> simp_all

/-! ### Registers and written flags -/

theorem State.reg_writeReg (s : State) (i k : RegIx) (v : FieldWord) :
    (s.writeReg i v).reg k = if k = i then v else s.reg k := by
  simp only [State.reg, State.writeReg_f, Vector.getElem_set, Fin.ext_iff, eq_comm]

@[simp] theorem State.reg_writeReg_same (s : State) (i : RegIx) (v : FieldWord) : (s.writeReg i v).reg i = v := by
  simp [State.reg_writeReg]

theorem State.written_writeReg (s : State) (i k : RegIx) (j : LimbIx) (v : FieldWord) :
    (s.writeReg i v).written k j = if k = i then true else s.written k j := by
  simp only [State.written, State.writeReg_w, Vector.getElem_set, Fin.ext_iff, eq_comm (a := k.val)]
  split <;> simp

@[simp] theorem State.written_writeReg_same (s : State) (i : RegIx) (j : LimbIx) (v : FieldWord) :
    (s.writeReg i v).written i j = true := by simp [State.written_writeReg]

theorem State.reg_writeLimb (s : State) (i k : RegIx) (j : LimbIx) (v : Word) :
    (s.writeLimb i j v).reg k = if k = i then withLimb (s.reg i) j v else s.reg k := by
  simp only [State.reg, State.writeLimb_f, Vector.getElem_set, Fin.ext_iff, eq_comm]

theorem State.written_writeLimb (s : State) (i k : RegIx) (j l : LimbIx) (v : Word) :
    (s.writeLimb i j v).written k l = if k = i ∧ l = j then true else s.written k l := by
  simp only [State.written, State.writeLimb_w, Vector.getElem_set, Fin.ext_iff, eq_comm (a := k.val),
    eq_comm (a := l.val)]
  by_cases h : i.val = k.val <;> by_cases h' : j.val = l.val <;> simp [h, h']

/-- Registers depend on the field `f` alone. -/
theorem State.reg_congr {s t : State} (h : t.f = s.f) (i : RegIx) : t.reg i = s.reg i := by simp [State.reg, h]

/-- Limbs depend on the field `f` alone. -/
theorem State.limb_congr {s t : State} (h : t.f = s.f) (i : RegIx) (j : LimbIx) : t.limb i j = s.limb i j := by
  simp [State.limb, State.reg_congr h]

/-- Written flags depend on the field `w` alone. -/
theorem State.written_congr {s t : State} (h : t.w = s.w) (i : RegIx) (j : LimbIx) :
    t.written i j = s.written i j := by simp [State.written, h]

theorem State.fullyWritten_iff (s : State) (i : RegIx) : s.fullyWritten i = true ↔ ∀ j, s.written i j = true := by
  simp [State.fullyWritten]

theorem State.unwrittenSource?_eq_none (s : State) (l : List RegIx) :
    s.unwrittenSource? l = none ↔ ∀ i ∈ l, s.fullyWritten i = true := by
  simp [State.unwrittenSource?]

@[simp] theorem State.reset_written (i : RegIx) (j : LimbIx) : State.reset.written i j = false := by
  simp [State.written, State.reset]

@[simp] theorem State.reset_reg (i : RegIx) : State.reset.reg i = 0 := by simp [State.reg, State.reset]

end Sys2Proof.Machine
end

