-- ==== Sys2Proof/Laws/Limbs.lean ====
section
/-! SUPPORT. Limbs of a 256-bit value: read after write, extensionality, and the offsets of the register window. -/

namespace Sys2Proof.Machine

theorem getLsbD_limbOf (x : FieldWord) (j : LimbIx) (k : Nat) :
    (limbOf x j).getLsbD k = (decide (k < 32) && x.getLsbD (32 * j.val + k)) :=
  BitVec.getLsbD_extractLsb' ..

theorem getLsbD_withLimb (x : FieldWord) (j : LimbIx) (v : Word) (k : Nat) (hk : k < 256) :
    (withLimb x j v).getLsbD k =
      if 32 * j.val ≤ k ∧ k < 32 * j.val + 32 then v.getLsbD (k - 32 * j.val) else x.getLsbD k := by
  have hv : ¬ k - 32 * j.val < 32 → v.getLsbD (k - 32 * j.val) = false :=
    fun h => BitVec.getLsbD_of_ge v _ (by omega)
  simp only [withLimb, BitVec.getLsbD_or, BitVec.getLsbD_and, BitVec.getLsbD_not, BitVec.getLsbD_shiftLeft,
    BitVec.getLsbD_setWidth, BitVec.getLsbD_allOnes, hk]
  by_cases h1 : 32 * j.val ≤ k <;> by_cases h2 : k - 32 * j.val < 32
  · have : k < 32 * j.val + 32 := by omega
    have : ¬ k < 32 * j.val := by omega
    have : k - 32 * j.val < 256 := by omega
    simp [*]
  · have : ¬ k < 32 * j.val + 32 := by omega
    have : ¬ k < 32 * j.val := by omega
    simp only [hv h2]
    simp [*]
  · have : k < 32 * j.val := by omega
    simp [*]
  · omega

@[simp] theorem limbOf_withLimb_same (x : FieldWord) (j : LimbIx) (v : Word) : limbOf (withLimb x j v) j = v := by
  apply BitVec.eq_of_getLsbD_eq
  intro k hk
  have hj := j.isLt
  rw [getLsbD_limbOf, getLsbD_withLimb _ _ _ _ (by omega), if_pos (by omega), decide_eq_true hk, Bool.true_and]
  congr 1
  omega

theorem limbOf_withLimb_other (x : FieldWord) (j l : LimbIx) (v : Word) (h : l ≠ j) :
    limbOf (withLimb x j v) l = limbOf x l := by
  apply BitVec.eq_of_getLsbD_eq
  intro k hk
  have hj := j.isLt
  have hl := l.isLt
  have hne : l.val ≠ j.val := fun e => h (Fin.ext e)
  rw [getLsbD_limbOf, getLsbD_limbOf, getLsbD_withLimb _ _ _ _ (by omega), if_neg (by omega)]

/-- A 256-bit value is determined by its eight limbs (spec/10_state.md R22). -/
theorem eq_of_limbs_eq {x y : FieldWord} (h : ∀ j, limbOf x j = limbOf y j) : x = y := by
  apply BitVec.eq_of_getLsbD_eq
  intro k hk
  have hb := congrArg (fun v : Word => v.getLsbD (k % 32)) (h ⟨k / 32, by omega⟩)
  have hm : k % 32 < 32 := Nat.mod_lt _ (by decide)
  have hs : 32 * (k / 32) + k % 32 = k := Nat.div_add_mod k 32
  simpa only [getLsbD_limbOf, hm, hs, decide_true, Bool.true_and] using hb

theorem State.limb_writeLimb (s : State) (i k : RegIx) (j l : LimbIx) (v : Word) :
    (s.writeLimb i j v).limb k l = if k = i ∧ l = j then v else s.limb k l := by
  by_cases hk : k = i
  · subst hk
    by_cases hl : l = j
    · simp [State.limb, State.reg_writeLimb, hl]
    · simp [State.limb, State.reg_writeLimb, hl, limbOf_withLimb_other]
  · simp [State.limb, State.reg_writeLimb, hk]

/-- The window's byte depends on the one register it lies in. -/
theorem State.windowByte_congr {s t : State} (b : Fin 512)
    (h : t.reg ⟨b.val / 32, by omega⟩ = s.reg ⟨b.val / 32, by omega⟩) : t.windowByte b = s.windowByte b := by
  simp [State.windowByte, State.limb, h]

/-! ### Offsets -/

theorem limbOffset_toNat (i : RegIx) (j : LimbIx) : (limbOffset i j).toNat = 0x20 * i.val + 4 * j.val := by
  have := i.isLt; have := j.isLt
  simp only [limbOffset, BitVec.toNat_ofNat]
  omega

@[simp] theorem aligned_iff (off : Offset) : aligned off = true ↔ off.toNat % 4 = 0 := by
  simp only [aligned, beq_iff_eq, ← BitVec.toNat_inj, BitVec.extractLsb'_toNat]
  simp

/-- The address map (spec/20_memory.md R41, R42): in the register window the index and the limb are the offset divided
by 32 and by 4. -/
theorem targetOf_freg (off : Offset) (h : off.toNat ≤ 0x1FF) :
    targetOf off = some (.freg ⟨off.toNat / 32, by omega⟩ ⟨off.toNat / 4 % 8, by omega⟩) := by
  simp only [targetOf, h, if_true, Option.some.injEq, Target.freg.injEq]
  constructor <;> apply Fin.ext
  · simp only [regIx, BitVec.extractLsb'_toNat, Nat.shiftRight_eq_div_pow]
    omega
  · simp only [BitVec.extractLsb'_toNat, Nat.shiftRight_eq_div_pow]

@[simp] theorem targetOf_limbOffset (i : RegIx) (j : LimbIx) : targetOf (limbOffset i j) = some (.freg i j) := by
  have hi := i.isLt; have hj := j.isLt
  have h := limbOffset_toNat i j
  rw [targetOf_freg _ (by omega)]
  simp only [Option.some.injEq, Target.freg.injEq, Fin.ext_iff]
  omega

@[simp] theorem aligned_limbOffset (i : RegIx) (j : LimbIx) : aligned (limbOffset i j) = true := by
  rw [aligned_iff, limbOffset_toNat]
  omega

theorem targetOf_eq_none (off : Offset) : targetOf off = none ↔ 0x20C ≤ off.toNat := by
  unfold targetOf
  split
  · simp; omega
  · split
    · simp; omega
    · split
      · simp; omega
      · split <;> simp <;> omega

end Sys2Proof.Machine
end

