-- ==== Sys2Proof/Laws/Commands.lean ====
section
/-! SUPPORT. What a command does, said once: every command is the shared execution frame applied to its sources, its
destination and its result (spec/41_field_ops.md R100), and every result is a canonical reduction. -/

namespace Sys2Proof.Machine

/-! ### The canonical reduction (spec/40_field_model.md R81) -/

theorem p_pos : 0 < p := by decide

theorem p_lt : p < 2 ^ 256 := by decide

theorem modp_cast (x : Int) : ((modp x : Nat) : Int) = x % (p : Int) :=
  Int.toNat_of_nonneg (Int.emod_nonneg x (by have := p_pos; omega))

theorem modp_lt (x : Int) : modp x < p := by
  have h := modp_cast x
  have := Int.emod_lt_of_pos x (b := (p : Int)) (by have := p_pos; omega)
  omega

/-- Congruent integers have the same canonical reduction. -/
theorem modp_congr {x y : Int} (h : x ≡ y [ZMOD (p : Int)]) : modp x = modp y := congrArg Int.toNat h

theorem modp_natCast (n : Nat) : modp (n : Int) = n % p := by
  have h := modp_cast (n : Int)
  omega

theorem bits256_toNat {r : Nat} (h : r < p) : (bits256 r).toNat = r := by
  have := p_lt
  simp only [bits256, BitVec.toNat_ofNat]
  exact Nat.mod_eq_of_lt (by omega)

/-! ### Commands -/

/-- The result of a command on the registers of a state: `result(op, a, b, cond)` of R100. -/
def commandResult (i : Instr) (s : State) : Nat :=
  match i with
  | .add _ ra rb => addResult (s.reg ra) (s.reg rb)
  | .sub _ ra rb => subResult (s.reg ra) (s.reg rb)
  | .mul _ ra rb => mulResult (s.reg ra) (s.reg rb)
  | .mul32 _ ra => mul32Result (s.reg ra)
  | .sqr _ ra => sqrResult (s.reg ra)
  | .hlv _ ra => hlvResult (s.reg ra)
  | .cneg _ ra cond => cnegResult (s.reg ra) cond

theorem commandResult_lt (i : Instr) (s : State) : commandResult i s < p := by
  cases i <;> simp only [commandResult, addResult, subResult, mulResult, mul32Result, sqrResult, hlvResult, cnegResult]
  case cneg rd ra cond => cases cond <;> exact modp_lt _
  all_goals exact modp_lt _

theorem exec_eq_runCommand (i : Instr) (s : State) : exec i s = runCommand i.sources i.dest (commandResult i s) s := by
  cases i <;> rfl

/-- The state a command leaves. -/
theorem exec_eq (i : Instr) (s : State) :
    exec i s = .next ((s.noteSources i.sources).writeReg i.dest (bits256 (commandResult i s))) :=
  exec_eq_runCommand i s

/-- Everything but the destination, its written flags and the mark is unchanged. -/
theorem commandFrame_of_writeReg (l : List RegIx) (rd : RegIx) (v : FieldWord) (s : State) :
    CommandFrame rd s ((s.noteSources l).writeReg rd v) where
  regs i h := by rw [State.reg_writeReg, if_neg h]; exact State.reg_congr (by simp) i
  written i j h := by rw [State.written_writeReg, if_neg h]; exact State.written_congr (by simp) i j
  bytes b h := State.windowByte_congr b (by
    rw [State.reg_writeReg, if_neg (fun e => h (congrArg Fin.val e))]; exact State.reg_congr (by simp) _)
  err := by simp
  cause := by simp
  multi := by simp
  errcmd := by simp
  rstN := by simp
  pending := by simp
  answer := by simp

/-! ### The coder -/

@[simp] theorem regIx_regBits (r : RegIx) : regIx (regBits r) = r := by
  apply Fin.ext
  have := r.isLt
  simp only [regIx, regBits, BitVec.toNat_ofNat]
  omega

/-- The fields of an assembled word are the fields it was assembled from (spec/30_encoding.md R60 to R62). -/
@[simp] theorem fieldsOf_assemble (f : Fields) : fieldsOf (assemble f) = f := by
  obtain ⟨op, rd, ra, rb, cond, rsv⟩ := f
  simp only [fieldsOf, assemble, Fields.mk.injEq]
  refine ⟨?_, ?_, ?_, ?_, ?_, ?_⟩
  case refine_5 => simp only [BitVec.getLsbD_append, BitVec.getLsbD_ofBool]; simp
  all_goals
    apply BitVec.eq_of_getLsbD_eq
    intro k hk
    simp only [BitVec.getLsbD_extractLsb', BitVec.getLsbD_append, BitVec.getLsbD_ofBool, hk]
    interval_cases k <;> simp

end Sys2Proof.Machine
end

