-- ==== Sys2Proof/Laws/Decode.lean ====
section
/-! SUPPORT. What the decoder can answer, said once (`decodeFields_cases`), and its seven legal opcodes. -/

namespace Sys2Proof

/-- The seven legal opcodes (spec/30_encoding.md R63). -/
theorem legal_opcodes (op : BitVec 4) :
    opIllegal op = true ∨ op = 1 ∨ op = 2 ∨ op = 3 ∨ op = 4 ∨ op = 5 ∨ op = 6 ∨ op = 7 := by
  revert op; decide

theorem opIllegal_iff (op : BitVec 4) : opIllegal op = true ↔ op.toNat = 0 ∨ 8 ≤ op.toNat := by
  revert op; decide

theorem opUnary_iff (op : BitVec 4) : opUnary op = true ↔ 4 ≤ op.toNat ∧ op.toNat ≤ 7 := by
  revert op; decide

/-- Everything the decoder can answer for the fields of a word (R64). -/
theorem decodeFields_cases (f : Fields) :
    (opIllegal f.op = true ∧ decodeFields f = .error .illegalOpcode) ∨
    (opIllegal f.op = false ∧ f.rsv ≠ 0 ∧ decodeFields f = .error .reservedNonzero) ∨
    (opIllegal f.op = false ∧ f.rsv = 0 ∧ ((f.cond = true ∧ f.op ≠ 7) ∨ (opUnary f.op = true ∧ f.rb ≠ 0)) ∧
      decodeFields f = .error .unusedFieldNonzero) ∨
    (opIllegal f.op = false ∧ f.rsv = 0 ∧ (f.cond = true → f.op = 7) ∧ (opUnary f.op = true → f.rb = 0) ∧
      decodeFields f = .ok (commandOf f)) := by
  unfold decodeFields
  by_cases h1 : opIllegal f.op = true
  · exact .inl ⟨h1, by rw [if_pos h1]⟩
  have h1' : opIllegal f.op = false := by simpa using h1
  by_cases h2 : f.rsv = 0
  · by_cases h3 : f.cond = true ∧ f.op ≠ 7
    · exact .inr (.inr (.inl ⟨h1', h2, .inl h3, by rw [if_neg h1, if_neg (not_not.mpr h2), if_pos h3]⟩))
    · by_cases h4 : opUnary f.op = true ∧ f.rb ≠ 0
      · exact .inr (.inr (.inl ⟨h1', h2, .inr h4, by rw [if_neg h1, if_neg (not_not.mpr h2), if_neg h3, if_pos h4]⟩))
      · refine .inr (.inr (.inr ⟨h1', h2, ?_, ?_, by rw [if_neg h1, if_neg (not_not.mpr h2), if_neg h3, if_neg h4]⟩))
        · exact fun hc => by_contra fun ho => h3 ⟨hc, ho⟩
        · exact fun hu => by_contra fun hb => h4 ⟨hu, hb⟩
  · exact .inr (.inl ⟨h1', h2, by rw [if_neg h1, if_pos h2]⟩)

end Sys2Proof
end

