-- ==== Sys2Proof/Laws/HostPort.lean ====
section
/-! SUPPORT. What an event and a step can do, said once (`perform_next_cases`, `step_next_cases`): every invariant is a
case analysis of these, and no later proof unfolds the port. -/

namespace Sys2Proof.Machine

/-- The offset of a mapped register (spec/20_memory.md R41, R42). -/
def offsetOf : Target → Offset
  | .freg i j => limbOffset i j
  | .cmd => 0x200
  | .status => 0x204
  | .errcmd => 0x208

@[simp] theorem targetOf_offsetOf (t : Target) : targetOf (offsetOf t) = some t := by
  cases t with
  | freg i j => exact targetOf_limbOffset i j
  | _ => decide

@[simp] theorem aligned_offsetOf (t : Target) : aligned (offsetOf t) = true := by
  cases t with
  | freg i j => exact aligned_limbOffset i j
  | _ => decide

/-- An aligned offset reaches a register only if it is that register's offset. -/
theorem offset_eq_of_target {off : Offset} {t : Target} (ha : aligned off = true) (ht : targetOf off = some t) :
    off = offsetOf t := by
  rw [aligned_iff] at ha
  apply BitVec.eq_of_toNat_eq
  by_cases h : off.toNat ≤ 0x1FF
  · rw [targetOf_freg off h] at ht
    obtain rfl := Option.some.inj ht
    simp only [offsetOf, limbOffset_toNat]
    omega
  · unfold targetOf at ht
    rw [if_neg h] at ht
    split at ht
    · obtain rfl := Option.some.inj ht
      change off.toNat = 0x200
      omega
    · split at ht
      · obtain rfl := Option.some.inj ht
        change off.toNat = 0x204
        omega
      · split at ht
        · obtain rfl := Option.some.inj ht
          change off.toNat = 0x208
          omega
        · cases ht

/-! ### What each accepted event does -/

theorem perform_br (t : Target) (s : State) (h : s.rstN = true) :
    perform (br (offsetOf t)) s = .next (readTarget t s) := by
  simp [perform, br, accessTarget, h]

theorem perform_bw (t : Target) (v : Word) (s : State) (h : s.rstN = true) :
    perform (bw (offsetOf t) v) s = writeRegister t v s := by
  simp [perform, bw, writeTarget, accessTarget, h]

theorem commandResult_congr {s t : State} (h : t.f = s.f) (i : Instr) : commandResult i t = commandResult i s := by
  cases i <;> simp only [commandResult, State.reg_congr h]

/-- The state after a decoded command was written to CMD. -/
def afterCommand (i : Instr) (s : State) : State :=
  ((s.respond .done).noteSources i.sources).writeReg i.dest (bits256 (commandResult i s))

theorem submit_ok {v : Word} {i : Instr} (h : decode v = .ok i) (s : State) : submit v s = .next (afterCommand i s) := by
  rw [submit, h, afterCommand, ← commandResult_congr (s := s) (t := s.respond .done) rfl]
  exact exec_eq i _

theorem submit_error {v : Word} {c : CmdError} (h : decode v = .error c) (s : State) :
    submit v s = .next ((s.respond .done).recordCmdError c v) := by
  rw [submit, h]

/-- Everything a write to a mapped register can do: it always completes. -/
theorem writeRegister_cases (t : Target) (v : Word) (s : State) :
    (∃ i j, t = .freg i j ∧ writeRegister t v s = .next ((s.writeLimb i j v).respond .done)) ∨
    (∃ i, t = .cmd ∧ decode v = .ok i ∧ writeRegister t v s = .next (afterCommand i s)) ∨
    (∃ c, t = .cmd ∧ decode v = .error c ∧ writeRegister t v s = .next ((s.respond .done).recordCmdError c v)) ∨
    (t = .status ∧ writeRegister t v s = .next ((s.writeStatus v).respond .done)) ∨
    (t = .errcmd ∧ writeRegister t v s = .next (s.respond .done)) := by
  cases t with
  | freg i j => exact .inl ⟨i, j, rfl, rfl⟩
  | cmd =>
    cases h : decode v with
    | ok i => exact .inr (.inl ⟨i, rfl, rfl, submit_ok h s⟩)
    | error c => exact .inr (.inr (.inl ⟨c, rfl, rfl, submit_error h s⟩))
  | status => exact .inr (.inr (.inr (.inl ⟨rfl, rfl⟩)))
  | errcmd => exact .inr (.inr (.inr (.inr ⟨rfl, rfl⟩)))

/-- Everything an event can do that answers a next state. -/
theorem perform_next_cases {e : HostEvent} {s t : State} (h : perform e s = .next t) :
    (∃ level, e = .rst level ∧ t = s.driveReset level) ∨
    (∃ x, e = br (offsetOf x) ∧ s.rstN = true ∧ t = readTarget x s) ∨
    (∃ i j v, e = bw (limbOffset i j) v ∧ s.rstN = true ∧ t = (s.writeLimb i j v).respond .done) ∨
    (∃ v i, e = bw 0x200 v ∧ s.rstN = true ∧ decode v = .ok i ∧ t = afterCommand i s) ∨
    (∃ v c, e = bw 0x200 v ∧ s.rstN = true ∧ decode v = .error c ∧ t = (s.respond .done).recordCmdError c v) ∨
    (∃ v, e = bw 0x204 v ∧ s.rstN = true ∧ t = (s.writeStatus v).respond .done) ∨
    (∃ v, e = bw 0x208 v ∧ s.rstN = true ∧ t = s.respond .done) := by
  cases e with
  | rst level =>
    cases h
    exact .inl ⟨level, rfl, rfl⟩
  | read width off =>
    simp only [perform] at h
    split at h
    case isFalse => cases h
    case isTrue hr =>
      simp only [accessTarget] at h
      split at h
      case h_2 => cases h
      case h_1 x hx =>
        split at hx
        case isFalse => cases hx
        case isTrue hw =>
          split at hx <;> cases hx
          rename_i hx
          obtain ⟨rfl, ha⟩ := hw
          obtain rfl := offset_eq_of_target ha hx
          cases h
          exact .inr (.inl ⟨x, rfl, hr, rfl⟩)
  | write width strobe off v =>
    simp only [perform] at h
    split at h
    case isFalse => cases h
    case isTrue hr =>
      simp only [writeTarget, accessTarget] at h
      split at h
      case h_2 => cases h
      case h_1 x hx =>
        split at hx
        case isFalse => cases hx
        case isTrue hs =>
          split at hx
          case isFalse => cases hx
          case isTrue hw =>
            split at hx <;> cases hx
            rename_i hx
            obtain ⟨rfl, ha⟩ := hw
            obtain rfl := offset_eq_of_target ha hx
            subst hs
            rcases writeRegister_cases x v s with ⟨i, j, rfl, hw⟩ | ⟨i, rfl, hd, hw⟩ | ⟨c, rfl, hd, hw⟩ | ⟨rfl, hw⟩ | ⟨rfl, hw⟩ <;>
              rw [hw] at h <;> cases h
            · exact .inr (.inr (.inl ⟨i, j, v, rfl, hr, rfl⟩))
            · exact .inr (.inr (.inr (.inl ⟨v, i, rfl, hr, hd, rfl⟩)))
            · exact .inr (.inr (.inr (.inr (.inl ⟨v, c, rfl, hr, hd, rfl⟩))))
            · exact .inr (.inr (.inr (.inr (.inr (.inl ⟨v, rfl, hr, rfl⟩)))))
            · exact .inr (.inr (.inr (.inr (.inr (.inr ⟨v, rfl, hr, rfl⟩)))))

/-- Everything an event can do that is a fault: it is an access out of reset, rejected with a bus error. -/
theorem perform_fault_cases {e : HostEvent} {s : State} {x : Fault} (h : perform e s = .fault x) :
    s.rstN = true ∧ isAccess e ∧ ∃ kind off, x = .busError kind off (s.rejectAccess kind off) := by
  cases e with
  | rst level => cases h
  | read width off =>
    simp only [perform] at h
    split at h
    case isFalse => cases h
    case isTrue hr =>
      split at h <;> cases h
      exact ⟨hr, trivial, _, _, rfl⟩
  | write width strobe off v =>
    simp only [perform] at h
    split at h
    case isFalse => cases h
    case isTrue hr =>
      split at h
      case h_1 t ht =>
        rcases writeRegister_cases t v s with ⟨i, j, _, hw⟩ | ⟨i, _, _, hw⟩ | ⟨c, _, _, hw⟩ | ⟨_, hw⟩ | ⟨_, hw⟩ <;>
          rw [hw] at h <;> cases h
      case h_2 =>
        cases h
        exact ⟨hr, trivial, _, _, rfl⟩

/-- Everything a step can do that answers a next state: nothing is pending and nothing changes, or the first pending
event is performed on the state without it. -/
theorem step_next_cases {s t : State} (h : step s = .next t) :
    (s.pending = [] ∧ t = s) ∨
    (∃ e rest, s.pending = e :: rest ∧ perform e { s with pending := rest } = .next t) := by
  unfold step acceptNext at h
  split at h
  case h_1 hp => cases h; exact .inl ⟨hp, rfl⟩
  case h_2 e rest hp => exact .inr ⟨e, rest, hp, h⟩

/-- Everything a step can do that is a fault: the first pending access is rejected with a bus error, on the state without
it. -/
theorem step_fault_cases {s : State} {x : Fault} (h : step s = .fault x) :
    s.rstN = true ∧ ∃ e rest kind off, s.pending = e :: rest ∧ isAccess e ∧
      x = .busError kind off (({ s with pending := rest } : State).rejectAccess kind off) := by
  unfold step acceptNext at h
  split at h
  case h_1 => cases h
  case h_2 e rest hp =>
    obtain ⟨hr, ha, kind, off, rfl⟩ := perform_fault_cases h
    exact ⟨hr, e, rest, kind, off, hp, ha, rfl⟩

/-- The state a step leaves is its next state or the state of its bus error. -/
theorem stateAfter_eq_some {o : Host.Outcome State Fault Refusal} {t : State} :
    stateAfter o = some t ↔ o = .next t ∨ ∃ kind off, o = .fault (.busError kind off t) := by
  rcases o with u | ⟨kind, off, u⟩ | r <;> simp [stateAfter]

/-- A run without a bus error is a run that goes on past bus errors. -/
theorem runOn_of_run {n : Nat} {s t : State} (h : run n s = .next t) : runOn n s = some t := by
  induction n generalizing s with
  | zero =>
    cases h
    rfl
  | succ n ih =>
    unfold run at h
    split at h
    case h_1 u hu =>
      rw [runOn, hu]
      exact ih h
    all_goals cases h

theorem step_of_pending {s : State} {e : HostEvent} {rest : List HostEvent} (h : s.pending = e :: rest) :
    step s = perform e { s with pending := rest } := by
  simp [step, acceptNext, h]

/-- A step whose next event is a write to a mapped register. -/
theorem step_bw (x : Target) (v : Word) {s : State} {rest : List HostEvent} (h : s.rstN = true)
    (hp : s.pending = bw (offsetOf x) v :: rest) : step s = writeRegister x v { s with pending := rest } :=
  (step_of_pending hp).trans (perform_bw x v _ h)

/-- A step whose next event is a read of a mapped register. -/
theorem step_br (x : Target) {s : State} {rest : List HostEvent} (h : s.rstN = true)
    (hp : s.pending = br (offsetOf x) :: rest) : step s = .next (readTarget x { s with pending := rest }) :=
  (step_of_pending hp).trans (perform_br x _ h)

/-! ### The queue has no part in what an event does (spec/20_memory.md R48) -/

theorem submit_withQueue (v : Word) (s : State) (queue : List HostEvent) :
    submit v { s with pending := queue } = withQueue queue (submit v s) := by
  cases hd : decode v with
  | ok i =>
    rw [submit_ok hd, submit_ok hd]
    simp only [afterCommand, commandResult_congr (s := s) (t := { s with pending := queue }) rfl,
      State.noteSources_eq, withQueue]
    rfl
  | error c =>
    rw [submit_error hd, submit_error hd]
    obtain ⟨_, _, err, _⟩ := s
    cases err <;> rfl

theorem writeRegister_withQueue (x : Target) (v : Word) (s : State) (queue : List HostEvent) :
    writeRegister x v { s with pending := queue } = withQueue queue (writeRegister x v s) := by
  cases x with
  | cmd => exact submit_withQueue v s queue
  | status =>
    simp only [writeRegister, State.writeStatus]
    split <;> rfl
  | _ => rfl

/-- An event does the same whatever stands behind it in the queue. -/
theorem perform_withQueue (e : HostEvent) (s : State) (queue : List HostEvent) :
    perform e { s with pending := queue } = withQueue queue (perform e s) := by
  cases e with
  | rst level =>
    simp only [perform, State.driveReset]
    split <;> rfl
  | read width off =>
    simp only [perform]
    split
    · split
      case h_1 x _ => cases x <;> simp only [readTarget, State.noteRead_eq] <;> rfl
      case h_2 => simp only [State.rejectAccess_eq, withQueue]
    · rfl
  | write width strobe off v =>
    simp only [perform]
    split
    · split
      case h_1 => exact writeRegister_withQueue _ v s queue
      case h_2 => simp only [State.rejectAccess_eq, withQueue]
    · rfl

/-! ### The outcome in the terms of spec/60_exceptions.md R147 -/

theorem strictOutcome_of_good {s t : State} (h : step s = .next t) (hm : t.mark = none) : strictOutcome s = .next t := by
  simp only [strictOutcome, h, hm]

theorem strictOutcome_of_busError {s t : State} {kind : BusErrorKind} {off : Offset}
    (h : step s = .fault (.busError kind off t)) : strictOutcome s = .fault (.busError kind off) := by
  simp only [strictOutcome, h]

theorem strictOutcome_of_mark {s t : State} {m : ModelFault} (h : step s = .next t) (hm : t.mark = some m) :
    strictOutcome s = .fault m := by
  simp only [strictOutcome, h, hm]

/-! ### A read changes no register, and no event removes the mark (R147) -/

/-- A read changes the mark and the response alone (spec/20_memory.md R47). -/
theorem readTarget_eq (x : Target) (s : State) :
    readTarget x s = { s with mark := (readTarget x s).mark, answer := (readTarget x s).answer } := by
  cases x with
  | freg i j => simp only [readTarget, State.noteRead_eq, State.respond]
  | _ => rfl

theorem readTarget_mark_of_some (x : Target) {s : State} {m : ModelFault} (h : s.mark = some m) :
    (readTarget x s).mark = some m := by
  cases x <;> simp [readTarget, h]

theorem afterCommand_mark (i : Instr) (s : State) :
    (afterCommand i s).mark = s.mark.or ((s.unwrittenSource? i.sources).map .unwrittenSource) := by
  rw [afterCommand, State.writeReg_mark, State.noteSources_mark]
  rfl

end Sys2Proof.Machine
end

