-- ==== Sys2Proof/Laws/PerInstr.lean ====
section
/-! SUPPORT. The family `FieldsWellFormed`: the fields of every command pass the checks of spec/30_encoding.md R60 and
R63 (a legal opcode, zero reserved bits, zero in every field the opcode does not use). -/

namespace Sys2Proof.Laws.FieldsWellFormed

/-- The fields the encoder gives a command are well formed. -/
def Statement (i : Instr) : Prop := i.fields.wellFormed = true

theorem add (rd ra rb : RegIx) : Statement (.add rd ra rb) := by
  simp [Statement, Instr.fields, Fields.wellFormed, Fields.opLegal, Fields.rsvClear, Fields.condUsed, Fields.rbUsed]

theorem sub (rd ra rb : RegIx) : Statement (.sub rd ra rb) := by
  simp [Statement, Instr.fields, Fields.wellFormed, Fields.opLegal, Fields.rsvClear, Fields.condUsed, Fields.rbUsed]

theorem mul (rd ra rb : RegIx) : Statement (.mul rd ra rb) := by
  simp [Statement, Instr.fields, Fields.wellFormed, Fields.opLegal, Fields.rsvClear, Fields.condUsed, Fields.rbUsed]

theorem mul32 (rd ra : RegIx) : Statement (.mul32 rd ra) := by
  simp [Statement, Instr.fields, Fields.wellFormed, Fields.opLegal, Fields.rsvClear, Fields.condUsed, Fields.rbUsed]

theorem sqr (rd ra : RegIx) : Statement (.sqr rd ra) := by
  simp [Statement, Instr.fields, Fields.wellFormed, Fields.opLegal, Fields.rsvClear, Fields.condUsed, Fields.rbUsed]

theorem hlv (rd ra : RegIx) : Statement (.hlv rd ra) := by
  simp [Statement, Instr.fields, Fields.wellFormed, Fields.opLegal, Fields.rsvClear, Fields.condUsed, Fields.rbUsed]

theorem cneg (rd ra : RegIx) (cond : Bool) : Statement (.cneg rd ra cond) := by
  simp [Statement, Instr.fields, Fields.wellFormed, Fields.opLegal, Fields.rsvClear, Fields.condUsed, Fields.rbUsed]

end Sys2Proof.Laws.FieldsWellFormed
end

