-- ==== Sys2Proof/Laws/Primality.lean ====
section
/-! SUPPORT. Primality by certificate (Lucas, with the prime factors of n − 1), for the modulus of
spec/40_field_model.md R80: a checker the kernel evaluates fast, its soundness, and the largest prime factor of p − 1.
For p itself the certificate is the base 2 with the factors 2, 2, 3, 65147 and `factorOfModulus`. -/

namespace Sys2Proof.Laws

-- One theorem after the other: kernel evaluations that wait for one another in parallel hold a thread each.
set_option Elab.async false

/-- b ^ e mod n by repeated squaring, for exponents below 2 ^ fuel. -/
def powMod : Nat → Nat → Nat → Nat → Nat
  | 0, _, _, n => 1 % n
  | fuel + 1, b, e, n =>
    if e % 2 = 1 then b * powMod fuel (b * b % n) (e / 2) n % n else powMod fuel (b * b % n) (e / 2) n

theorem powMod_eq (fuel : Nat) : ∀ b e n, e < 2 ^ fuel → powMod fuel b e n = b ^ e % n := by
  induction fuel with
  | zero =>
    intro b e n h
    obtain rfl : e = 0 := by simpa using h
    simp [powMod]
  | succ fuel ih =>
    intro b e n h
    have he : e / 2 < 2 ^ fuel := by rw [pow_succ] at h; omega
    have half : (b * b % n) ^ (e / 2) % n = b ^ (2 * (e / 2)) % n := by rw [← Nat.pow_mod, pow_mul, pow_two]
    simp only [powMod, ih _ _ _ he, half]
    split
    · rw [Nat.mul_mod, Nat.mod_mod, ← Nat.mul_mod, ← pow_succ']
      congr 2
      omega
    · congr 2
      omega

/-- What makes `a` a witness that `n` is prime, when all members of `factors` are prime. -/
abbrev PrimeCertificate (n a : Nat) (factors : List Nat) : Prop :=
  1 < n ∧ n < Nat.pow 2 256 ∧ n - 1 = factors.foldr Nat.mul 1 ∧ powMod 256 a (n - 1) n = 1 ∧
  ∀ q ∈ factors, powMod 256 a ((n - 1) / q) n ≠ 1

theorem prime_of_certificate {n a : Nat} {factors : List Nat} (h : PrimeCertificate n a factors)
    (hf : ∀ q ∈ factors, q.Prime) : n.Prime := by
  obtain ⟨hn, hlt, hprod, hone, hne⟩ := h
  replace hlt : n < 2 ^ 256 := hlt
  replace hprod : n - 1 = factors.prod := hprod
  have key (k : Nat) (hk : k < 2 ^ 256) : (a : ZMod n) ^ k = 1 ↔ powMod 256 a k n = 1 := by
    have : ((a ^ k : Nat) : ZMod n) = ((1 : Nat) : ZMod n) ↔ a ^ k ≡ 1 [MOD n] := ZMod.natCast_eq_natCast_iff _ _ _
    rw [Nat.ModEq, Nat.mod_eq_of_lt hn] at this
    rw [powMod_eq _ _ _ _ hk, ← this]
    push_cast
    rfl
  refine lucas_primality n (a : ZMod n) ((key _ (by omega)).2 hone) fun q hq hd => ?_
  rw [ne_eq, key _ (lt_of_le_of_lt (Nat.div_le_self _ _) (by omega))]
  rw [hprod] at hd
  obtain ⟨r, hr, hqr⟩ := (Prime.dvd_prod_iff hq.prime).1 hd
  obtain rfl := (Nat.prime_dvd_prime_iff_eq hq (hf r hr)).1 hqr
  exact hne _ hr

theorem prime_2773320623 : Nat.Prime 2773320623 :=
  prime_of_certificate (a := 5) (factors := [2, 2437, 569003]) (by decide +kernel) (by
    simp only [List.forall_mem_cons]; norm_num)

theorem prime_72106336199 : Nat.Prime 72106336199 :=
  prime_of_certificate (a := 7) (factors := [2, 13, 2773320623]) (by decide +kernel) (by
    simp only [List.forall_mem_cons]
    exact ⟨by norm_num, by norm_num, prime_2773320623, by simp⟩)

theorem prime_1919519569386763 : Nat.Prime 1919519569386763 :=
  prime_of_certificate (a := 2) (factors := [2, 3, 7, 19, 47, 47, 127, 8574133]) (by decide +kernel) (by
    simp only [List.forall_mem_cons]; norm_num)

theorem prime_31757755568855353 : Nat.Prime 31757755568855353 :=
  prime_of_certificate (a := 10) (factors := [2, 2, 2, 3, 31, 107, 223, 4153, 430751]) (by decide +kernel) (by
    simp only [List.forall_mem_cons]; norm_num)

theorem prime_75445702479781427272750846543864801 : Nat.Prime 75445702479781427272750846543864801 :=
  prime_of_certificate (a := 7) (factors := [2, 2, 2, 2, 2, 3, 3, 5, 5, 75707, 72106336199, 1919519569386763])
    (by decide +kernel) (by
    simp only [List.forall_mem_cons]
    exact ⟨by norm_num, by norm_num, by norm_num, by norm_num, by norm_num, by norm_num, by norm_num, by norm_num,
      by norm_num, by norm_num, prime_72106336199, prime_1919519569386763, by simp⟩)

/-- The largest prime factor of p − 1. -/
def factorOfModulus : Nat := 74058212732561358302231226437062788676166966415465897661863160754340907

theorem prime_factorOfModulus : Nat.Prime factorOfModulus :=
  prime_of_certificate (a := 2)
    (factors := [2, 3, 353, 57467, 132049, 1923133, 31757755568855353, 75445702479781427272750846543864801])
    (by decide +kernel) (by
    simp only [List.forall_mem_cons]
    exact ⟨by norm_num, by norm_num, by norm_num, by norm_num, by norm_num, by norm_num, prime_31757755568855353,
      prime_75445702479781427272750846543864801, by simp⟩)

end Sys2Proof.Laws
end

