-- ==== Sys2Proof/Tests/Slice0.lean ====
section
/-! SUPPORT. The model's own tests. Expected values come from the spec: the words from spec/30_encoding.md R62, R68 and
spec/95_test_vectors.md section 4, the results from the corner cases of spec/41_field_ops.md and section 3 of the
vectors. The second half shows, for every statement with hypotheses, a state and operands that meet them. -/

namespace Sys2Proof.Tests

-- One theorem after the other: kernel evaluations that wait for one another in parallel hold a thread each.
set_option Elab.async false

open Sys2Proof.Machine

/-! ### Helpers -/

/-- The two high-entropy operands of spec/95_test_vectors.md. -/
def opX : FieldWord := 0x0123456789ABCDEFFEDCBA98765432100F1E2D3C4B5A69788796A5B4C3D2E1F0
def opY : FieldWord := 0xDEADBEEFCAFEBABE0123456789ABCDEF112233445566778899AABBCCDDEEFF00

/-- The reset state with F1 and F2 written. -/
def loaded (a b : FieldWord) : State := (State.reset.writeReg 1 a).writeReg 2 b

/-- A state with given pending events. -/
def withPending (s : State) (es : List HostEvent) : State := { s with pending := es }

/-- F[i] after a next state. -/
def regAfter (i : RegIx) : Host.Outcome State Fault Refusal → Option FieldWord
  | .next t => some (t.reg i)
  | _ => none

/-- A field of the next state. -/
def after {α : Type} (g : State → α) : Host.Outcome State Fault Refusal → Option α
  | .next t => some (g t)
  | _ => none

/-- The bus error of a step. -/
def busErrorOf : Host.Outcome State Fault Refusal → Option (BusErrorKind × Offset)
  | .fault (.busError kind off _) => some (kind, off)
  | _ => none

/-! ### Decoding, from words written out by R68 (section 4 and 6 of the vectors) -/

theorem test_decode_add : decode 0x00002131 = .ok (.add 3 1 2) := by decide
theorem test_decode_sub : decode 0x00002142 = .ok (.sub 4 1 2) := by decide
theorem test_decode_mul : decode 0x00001213 = .ok (.mul 1 2 1) := by decide
theorem test_decode_mul32 : decode 0x00000FE4 = .ok (.mul32 14 15) := by decide
theorem test_decode_sqr : decode 0x00000275 = .ok (.sqr 7 2) := by decide
theorem test_decode_hlv : decode 0x00000126 = .ok (.hlv 2 1) := by decide
theorem test_decode_red : decode 0x00000127 = .ok (.cneg 2 1 false) := by decide
theorem test_decode_neg : decode 0x00010127 = .ok (.cneg 2 1 true) := by decide
theorem test_decode_zero_word : decode 0x00000000 = .error .illegalOpcode := by decide
theorem test_decode_illegal_first : decode 0x0001F008 = .error .illegalOpcode := by decide
theorem test_decode_reserved_second : decode 0x80010001 = .error .reservedNonzero := by decide
theorem test_decode_add_with_cond : decode 0x00010001 = .error .unusedFieldNonzero := by decide
theorem test_decode_mul32_with_rb : decode 0x00001004 = .error .unusedFieldNonzero := by decide
theorem test_encode_example : encode (.add 3 1 2) = 0x00002131 := by decide
theorem test_table_word : decodeTableWord 32 0x00010127 = some (.cneg 2 1 true) := by decide
theorem test_asm : asm (.cneg 1 1 true) = "cneg f1, f1, 1" := by decide

/-! ### Well-formedness: each check refuses an ill-formed term -/

theorem test_wf_add : (fieldsOf 0x00002131).wellFormed = true := by decide
theorem test_wf_refuses_opcode_zero : Fields.opLegal ⟨0, 0, 0, 0, false, 0⟩ = false := by decide
theorem test_wf_refuses_opcode_eight : Fields.opLegal ⟨8, 0, 0, 0, false, 0⟩ = false := by decide
theorem test_wf_refuses_reserved : Fields.rsvClear ⟨1, 0, 0, 0, false, 1⟩ = false := by decide
theorem test_wf_refuses_cond_of_hlv : Fields.condUsed ⟨6, 0, 0, 0, true, 0⟩ = false := by decide
theorem test_wf_refuses_rb_of_cneg : Fields.rbUsed ⟨7, 0, 0, 1, true, 0⟩ = false := by decide

/-! ### Results (R101 to R107; vectors ADD8, ADD14, SUB9, SUB14, ...) -/

theorem test_add_beyond_256_bits :
    regAfter 3 (exec (.add 3 1 2) (loaded (BitVec.allOnes 256) (BitVec.allOnes 256))) = some 0x4A := by decide +kernel
theorem test_add_vector : regAfter 3 (exec (.add 3 1 2) (loaded opX opY)) =
    some 0x5FD1045754AA88ADFFFFFFFFFFFFFFFF20406080A0C0E10121416181A1C1E103 := by decide +kernel
theorem test_sub_below_zero : regAfter 3 (exec (.sub 3 1 2) (loaded 0 19)) =
    some 0x7FFFFFFFFFFFFFFFFFFFFFFFFFFFFFFFFFFFFFFFFFFFFFFFFFFFFFFFFFFFFFDA := by decide +kernel
theorem test_sub_vector : regAfter 1 (exec (.sub 1 1 2) (loaded opX opY)) =
    some 0x22758677BEAD1331FDB97530ECA86420FDFBF9F7F5F3F1EFEDEBE9E7E5E3E2CA := by decide +kernel
theorem test_mul_vector : regAfter 1 (exec (.mul 1 2 1) (loaded opX opY)) =
    some 0x16069F7835E4A5D38E2B7B73C972B5716CB6317643FC3E7DAF7CC1A03AB32C86 := by decide +kernel
theorem test_mul_beyond_256_bits :
    regAfter 3 (exec (.mul 3 1 2) (loaded (BitVec.allOnes 256) (BitVec.allOnes 256))) = some 0x559 := by decide +kernel
theorem test_mul32_limb_carry :
    regAfter 2 (exec (.mul32 2 1) (loaded 0xFFFFFFFF 0)) = some 0x0001DB41FFFE24BE := by decide +kernel
theorem test_mul32_vector : regAfter 2 (exec (.mul32 2 1) (loaded opX 0)) =
    some 0x3CDF0123456765C34320FEDCBA98B430E3B6895C2F01D4A77A4D1FF2C596E01B := by decide +kernel
theorem test_sqr_in_place : regAfter 1 (exec (.sqr 1 1) (loaded opX 0)) =
    some 0x77478962FA75FBB1DE7068DCE18BF12640758A69FF34F62D0753ABE9E77E88D0 := by decide +kernel
theorem test_hlv_odd : regAfter 2 (exec (.hlv 2 1) (loaded 1 0)) =
    some 0x3FFFFFFFFFFFFFFFFFFFFFFFFFFFFFFFFFFFFFFFFFFFFFFFFFFFFFFFFFFFFFF7 := by decide +kernel
theorem test_hlv_non_canonical : regAfter 1 (exec (.hlv 1 1) (loaded (BitVec.allOnes 256) 0)) =
    some 0x4000000000000000000000000000000000000000000000000000000000000009 := by decide +kernel
theorem test_cneg_of_p_is_zero : regAfter 2 (exec (.cneg 2 1 true) (loaded (bits256 p) 0)) = some 0 := by decide +kernel
theorem test_cneg_vector : regAfter 1 (exec (.cneg 1 1 true) (loaded opX 0)) =
    some 0x7EDCBA98765432100123456789ABCDEFF0E1D2C3B4A5968778695A4B3C2D1DFD := by decide +kernel
theorem test_red_non_canonical :
    regAfter 2 (exec (red 2 1) (loaded (BitVec.allOnes 256) 0)) = some 0x25 := by decide +kernel

/-! ### The host port (section 5 of the vectors) -/

/-- `ldf f1, p` put limb 7 at offset 0x03C (HV2). -/
theorem test_br_limb_seven : after State.answer (step (withPending (loaded (bits256 p) 0) [br 0x03C])) =
    some (.data 0x7FFFFFFF) := by decide +kernel
theorem test_bw_limb_zero : after (fun t => t.limb 1 0) (step (withPending State.reset [bw 0x020 0xFFFFFFED])) =
    some 0xFFFFFFED := by decide +kernel
theorem test_br_unmapped : busErrorOf (step (withPending State.reset [br 0x20C])) =
    some (.unmapped, 0x20C) := by decide +kernel
theorem test_bw_misaligned : busErrorOf (step (withPending State.reset [bw 0x022 0])) =
    some (.badWidthOrAlignment, 0x022) := by decide +kernel
theorem test_byte_write : busErrorOf (step (withPending State.reset [.write .bits8 0x1 0x020 0])) =
    some (.badWidthOrAlignment, 0x020) := by decide +kernel
/-- R147: the state a bus error leaves has it in the mark; R43: it has the error response. -/
theorem test_bus_error_is_marked :
    (stateAfter (step (withPending State.reset [br 0xFFC]))).map (fun t => (t.mark, t.answer)) =
      some (some (.busError .unmapped 0xFFC), .error) := by decide +kernel
/-- The sequence vector of section 4: two rejected words, then STATUS. -/
theorem test_status_after_two_errors :
    after State.statusWord (run 2 (withPending State.reset [bw 0x200 0x00000008, bw 0x200 0x00010001])) =
      some 0x0000000B := by decide +kernel
theorem test_errcmd_keeps_the_first :
    after State.errcmd (run 2 (withPending State.reset [bw 0x200 0x00000008, bw 0x200 0x00010001])) =
      some 0x00000008 := by decide +kernel
/-- HV10: the chip returns some value, the spec's model outcome is UnwrittenRead: the mark. -/
theorem test_br_after_reset_marks : after State.mark (step (withPending State.reset [br 0x040])) =
    some (some (.unwrittenRead 2 0)) := by decide +kernel
/-- Program P5: `sqr f2, f1` from reset is UnwrittenSource(1) in the spec's outcome, and the block goes on. -/
theorem test_sqr_after_reset_marks : after State.mark (step (State.reset.withFetchWord 32 0x00000125)) =
    some (some (.unwrittenSource 1)) := by decide +kernel

/-! ### Witnesses: the hypotheses of the statements can be met -/

/-- A block held in reset. -/
def held : State := { State.reset with rstN := false }

/-- A block with an error recorded: the word 0x00000008 was rejected. -/
def erred : State := { loaded 3 5 with err := true, cause := 0b01, errcmd := 0x00000008 }

theorem witness_ResetPulseRestoresResetState :
    (withPending erred [.rst false, .rst true]).pending = .rst false :: .rst true :: [] ∧
    held.rstN = false ∧ (withPending held [.rst true]).pending = .rst true :: [] ∧
    erred.rstN = true ∧ (withPending erred [.rst true]).pending = .rst true :: [] := by decide

theorem witness_DecodeChecksInOrder :
    decode 0x0000FFFF = .error .illegalOpcode ∧ decode 0x00000000 = .error .illegalOpcode ∧
    decode 0xFFFFFFF7 = .error .reservedNonzero ∧ decode 0x00020001 = .error .reservedNonzero ∧
    decode 0x00011007 = .error .unusedFieldNonzero ∧ decode 0x00001004 = .error .unusedFieldNonzero ∧
    decode 0x0000FFF1 = .ok (.add 15 15 15) ∧ decode 0x00010FF7 = .ok (.cneg 15 15 true) := by decide

theorem witness_DecodeFollowsMatchAndMask :
    (∀ m : Mnemonic, (0x00000000 : Word) &&& m.mask ≠ m.matchWord) ∧
    (0x00010FF7 : Word) &&& Mnemonic.cneg.mask = Mnemonic.cneg.matchWord := by
  refine ⟨fun m => ?_, by decide⟩
  cases m <;> decide

theorem witness_ReductionIsCanonical : 7 < p ∧ ((7 : Nat) : Int) ≡ 7 + (p : Int) [ZMOD (p : Int)] := by decide +kernel

theorem witness_HalvingConstantInvertsTwo : inv2 < p := by decide +kernel

theorem witness_EquivalentResultForms :
    0 = (bits256 p).toNat % p ∧ 5 = (5 : FieldWord).toNat % p ∧ (5 : FieldWord).toNat < p := by decide +kernel

theorem witness_CommandResults : (loaded opX opY).fullyWritten 1 = true ∧ (loaded opX opY).fullyWritten 2 = true := by
  decide +kernel

theorem witness_CnegWritesResidueOrNegation :
    0 = ((loaded (bits256 p) 0).reg 1).toNat % p ∧ p - 1 = ((loaded (bits256 (p - 1)) 0).reg 1).toNat % p := by
  decide +kernel

theorem witness_CommandWritesOnlyItsDestination :
    (withPending (loaded 3 5) [bw 0x200 0x00002131]).rstN = true ∧ decode 0x00002131 = .ok (.add 3 1 2) ∧
    (∀ r ∈ (Instr.add 3 1 2).sources, (loaded 3 5).fullyWritten r = true) ∧ (loaded 3 5).mark = none ∧
    (∃ r ∈ (Instr.add 3 1 2).sources, State.reset.fullyWritten r = false) := by decide +kernel

theorem witness_CommandResultsAreCanonical : ∃ t, exec (.hlv 2 1) (loaded 3 5) = .next t := ⟨_, rfl⟩

theorem witness_ResultsDependOnResiduesAlone :
    ∀ r ∈ (Instr.add 3 1 2).sources,
      ((loaded (bits256 p) 1).reg r).toNat ≡ ((loaded 0 (bits256 (p + 1))).reg r).toNat [MOD p] := by decide +kernel

theorem witness_AliasedCommandsUseOldValues :
    3 = ((loaded 3 5).reg 1).toNat ∧ 5 = ((loaded 3 5).reg 2).toNat := by decide +kernel

/-- p − 1 becomes p + 18 when its lowest limb is overwritten. -/
theorem witness_OnlyTheHostWritesNonCanonicalValues :
    ((loaded (bits256 (p - 1)) 0).reg 1).toNat < p ∧
    after (fun t => decide ((t.reg 1).toNat < p))
      (step (withPending (loaded (bits256 (p - 1)) 0) [bw (limbOffset 1 0) 0xFFFFFFFF])) = some false := by decide +kernel

theorem witness_StepRunsTheDecodedCommand :
    (withPending State.reset [bw 0x200 0x00010127]).rstN = true ∧ decode 0x00010127 = .ok (.cneg 2 1 true) ∧
    decodeTableWord 32 0x00010127 = some (.cneg 2 1 true) := by decide

theorem witness_CmdSubmitsEveryWord :
    (withPending erred [br 0x200]).rstN = true ∧ (withPending erred [bw 0x200 0]).pending = bw 0x200 0 :: [] := by decide

/-- The first and the last limb of the window. -/
theorem witness_RegisterWindowReadsAndWritesLimbs :
    (0x000 : Offset).toNat ≤ 0x1FF ∧ (0x000 : Offset).toNat % 4 = 0 ∧
    (0 : RegIx).val = (0x000 : Offset).toNat / 32 ∧ (0 : LimbIx).val = (0x000 : Offset).toNat / 4 % 8 ∧
    (0x1FC : Offset).toNat ≤ 0x1FF ∧ (0x1FC : Offset).toNat % 4 = 0 ∧
    (15 : RegIx).val = (0x1FC : Offset).toNat / 32 ∧ (7 : LimbIx).val = (0x1FC : Offset).toNat / 4 % 8 ∧
    (loaded 3 5).written 1 7 = true ∧ (loaded 3 5).written 15 7 = false ∧ (loaded 3 5).mark = none ∧
    (loaded 3 5).rstN = true := by decide +kernel

theorem witness_LimbReadAfterWriteReturnsIt :
    (withPending State.reset [bw (limbOffset 15 7) 1, br (limbOffset 15 7)]).pending =
      bw (limbOffset 15 7) 1 :: br (limbOffset 15 7) :: [] := by decide

theorem witness_WindowBytesAreLittleEndian :
    (0 : Fin 512).val = 0x20 * (0 : RegIx).val + (0 : Fin 32).val ∧
    (511 : Fin 512).val = 0x20 * (15 : RegIx).val + (31 : Fin 32).val := by decide

theorem witness_LoadSequenceStoresTheValueAsWritten :
    (withPending State.reset (ldf 15 (BitVec.allOnes 256))).pending = ldf 15 (BitVec.allOnes 256) ++ [] ∧
    (withPending (loaded 3 5) (stf 2)).pending = stf 2 ++ [] ∧ (loaded 3 5).fullyWritten 2 = true := by decide +kernel

theorem witness_RejectedWordIsRecorded :
    decode 0x00000008 = .error .illegalOpcode ∧ State.reset.err = false ∧ erred.err = true ∧
    (withPending erred [bw 0x200 0x00000008]).rstN = true := by decide

theorem witness_ErrorsStayUntilClearedAndStopNothing :
    (∃ t, step erred = .next t) ∧ erred.err = true ∧ ∃ t, exec (.sqr 1 1) erred = .next t :=
  ⟨⟨_, rfl⟩, rfl, ⟨_, rfl⟩⟩

theorem witness_StatusRegisterFields :
    (withPending erred [br 0x204]).rstN = true ∧ erred.statusInv ∧ State.reset.statusInv ∧
    (0x00000001 : Word).getLsbD 0 = (0xFFFFFFFF : Word).getLsbD 0 ∧
    (State.reset.err = false ∧ after State.err (step (withPending State.reset [bw 0x200 0])) = some true) := by
  refine ⟨by decide, ⟨by decide, fun _ => ⟨.illegalOpcode, by decide, by decide⟩⟩, ⟨by decide, fun h => nomatch h⟩, by decide,
    by decide, by decide +kernel⟩

theorem witness_StatusWriteOneClears : (0x00000001 : Word).toNat % 2 = 1 ∧ (0xFFFFFFFE : Word).toNat % 2 = 0 := by
  decide

theorem witness_ErrcmdHoldsTheFirstRejectedWord :
    State.reset.statusInv ∧ State.reset.err = false ∧ (withPending erred [br 0x208]).rstN = true ∧
    decode 0x00000008 = .error .illegalOpcode ∧
    (stateAfter (step (withPending State.reset [br 0x208]))).map State.err = some false ∧
    after (fun t => decide (t.errcmd = State.reset.errcmd)) (step (withPending State.reset [bw 0x200 0x00000008])) =
      some false := by
  refine ⟨⟨by decide, fun h => nomatch h⟩, by decide, by decide, by decide, by decide +kernel, by decide +kernel⟩

theorem witness_BadWidthOrAlignmentIsABusError :
    AccessWidth.burst ≠ .bits32 ∧ (0x022 : Offset).toNat % 4 ≠ 0 ∧ (0b0111 : BitVec 4) ≠ 0b1111 ∧
    (withPending State.reset [.write .bits32 0b0111 0x200 0]).rstN = true := by decide

theorem witness_UnmappedOffsetIsABusError :
    0x20C ≤ (0x20C : Offset).toNat ∧ (0x20C : Offset).toNat % 4 = 0 ∧ 0x20C ≤ (0xFFC : Offset).toNat ∧
    (0xFFC : Offset).toNat % 4 = 0 := by decide

theorem witness_StepsStopOnlyAtUnacceptedAccesses :
    (∃ x, step (withPending State.reset [br 0xFFC]) = .fault x) ∧ (∃ r, step (withPending held [br 0x204]) = .refused r) :=
  ⟨⟨_, rfl⟩, ⟨_, rfl⟩⟩

theorem witness_IdleBlockChangesNothing : erred.pending = [] := by decide

theorem witness_ApertureIsFourKilobytesAtBase : Config.base + 0xFFF < Config.base + 0x1000 := by omega

theorem witness_WrittenFlagsFollowTheirRule :
    State.reset.mark = none ∧ State.reset.written 0 0 = false ∧ State.reset.written 15 7 = false ∧
    decode 0x00000125 = .ok (.sqr 2 1) ∧ (1 : RegIx) ∈ (Instr.sqr 2 1).sources ∧ State.reset.fullyWritten 1 = false ∧
    decode 0x00000008 = .error .illegalOpcode := by decide +kernel

theorem witness_FaultMarkIsNeverCleared :
    after State.mark (run 3 (withPending State.reset [br 0x1FC, .rst false, .rst true])) =
      some (some (.unwrittenRead 15 7)) ∧
    (runOn 3 (withPending State.reset [br 0x20C, .rst false, .rst true])).map State.mark =
      some (some (.busError .unmapped 0x20C)) ∧
    ∃ t, step (withPending State.reset [br 0x20C]) = .fault (.busError .unmapped 0x20C t) :=
  ⟨by decide +kernel, by decide +kernel, _, rfl⟩

/-- The reset state and one whose unwritten F9 holds something else, with a good run. -/
theorem witness_UnwrittenLimbsNeverReachAGoodRun :
    AgreeOnWritten (withPending (loaded 3 5) [issue (.add 3 1 2), br 0x060])
      (withPending { loaded 3 5 with f := (loaded 3 5).f.set 9 77 } [issue (.add 3 1 2), br 0x060]) ∧
    after State.mark (run 2 (withPending (loaded 3 5) [issue (.add 3 1 2), br 0x060])) = some none := by
  refine ⟨⟨by decide +kernel, rfl, rfl, rfl, rfl, rfl, rfl, rfl, rfl, rfl⟩, by decide +kernel⟩

theorem witness_EveryStepKeepsTheInvariant :
    erred.inv ∧ (∃ t, stateAfter (step (withPending erred [bw 0x200 0])) = some t) ∧
    ∃ t, stateAfter (step (withPending erred [br 0x20C])) = some t :=
  ⟨⟨⟨by decide, fun _ => ⟨.illegalOpcode, by decide, by decide⟩⟩, fun h => by cases h⟩, ⟨_, rfl⟩, ⟨_, rfl⟩⟩

/-- Without a bus error, and with one that leaves an event unreached. -/
theorem witness_RunIsItsEventsInOrder :
    (withPending State.reset [.rst true, br 0x204, clrerr]).pending = [.rst true, br 0x204] ++ [clrerr] ∧
    (∃ t, run 2 (withPending State.reset [.rst true, br 0x204, clrerr]) = .next t) ∧
    (withPending State.reset [br 0x20C, br 0x200]).pending = [br 0x20C, br 0x200] ++ [] ∧
    ∃ t, run 2 (withPending State.reset [br 0x20C, br 0x200]) = .fault (.busError .unmapped 0x20C t) :=
  ⟨by decide, ⟨_, rfl⟩, by decide, ⟨_, rfl⟩⟩

end Sys2Proof.Tests
end

section
/-! SUPPORT and PROOFS. The state family: resets, written flags, STATUS, ERRCMD, CMD and limbs (spec/10_state.md), with the
two properties of every run: the invariant, and that unwritten limbs reach no good run. -/

namespace Sys2Proof.Machine

/-! ### Steps whose event is known -/

/-- A decodable word written to CMD (spec/10_state.md R26): the step is its command's. -/
theorem step_command {s : State} {w : Word} {rest : List HostEvent} {i : Instr} (hr : s.rstN = true)
    (hp : s.pending = bw 0x200 w :: rest) (hd : decode w = .ok i) :
    step s = .next (afterCommand i { s with pending := rest }) :=
  (step_bw .cmd w hr hp).trans (submit_ok hd _)

/-- A rejected word written to CMD (R26, spec/60_exceptions.md R143): the step records it. -/
theorem step_rejected {s : State} {w : Word} {rest : List HostEvent} {c : CmdError} (hr : s.rstN = true)
    (hp : s.pending = bw 0x200 w :: rest) (hd : decode w = .error c) :
    step s = .next ((({ s with pending := rest } : State).respond .done).recordCmdError c w) :=
  (step_bw .cmd w hr hp).trans (submit_error hd _)

theorem step_writeStatus {s : State} {v : Word} {rest : List HostEvent} (hr : s.rstN = true)
    (hp : s.pending = bw 0x204 v :: rest) :
    step s = .next ((({ s with pending := rest } : State).writeStatus v).respond .done) :=
  step_bw .status v hr hp

/-- The state a bus error leaves: the first pending event, an access out of reset, is rejected and nothing else happens. -/
theorem step_busError_cases {s t : State} {kind : BusErrorKind} {off : Offset}
    (h : step s = .fault (.busError kind off t)) : s.rstN = true ∧ ∃ e rest, s.pending = e :: rest ∧ isAccess e ∧
      t = ({ s with pending := rest } : State).rejectAccess kind off := by
  obtain ⟨hr, e, rest, kind', off', hp, ha, hx⟩ := step_fault_cases h
  obtain ⟨rfl, rfl, rfl⟩ := Fault.busError.inj hx
  exact ⟨hr, e, rest, hp, ha, rfl⟩

/-! ### Runs as steps -/

theorem run_succ_eq_next {n : Nat} {s t : State} :
    run (n + 1) s = .next t ↔ ∃ u, step s = .next u ∧ run n u = .next t := by
  rw [run]
  cases step s <;> simp

/-- What every step keeps, every run keeps. -/
theorem run_keeps {P : State → Prop} (hstep : ∀ s t, P s → step s = .next t → P t) {n : Nat} {s t : State} (hs : P s)
    (h : run n s = .next t) : P t := by
  induction n generalizing s with
  | zero => cases h; exact hs
  | succ n ih =>
    obtain ⟨u, hu, hrun⟩ := run_succ_eq_next.1 h
    exact ih (hstep s u hs hu) hrun

/-! ### Bit 0 of a write to STATUS (spec/10_state.md R27, R28) -/

theorem clearRequested_iff (v : Word) : clearRequested v = true ↔ v.toNat % 2 = 1 := by
  simp [clearRequested, BitVec.getLsbD, Nat.testBit_zero]

/-- A write of STATUS acts by its bit 0 alone (R27). -/
theorem State.writeStatus_congr (s : State) {v v' : Word} (h : v.getLsbD 0 = v'.getLsbD 0) :
    s.writeStatus v = s.writeStatus v' := by
  have hclear : clearRequested v = clearRequested v' := h
  rw [State.writeStatus, hclear, State.writeStatus]

/-! ### What a command leaves (spec/41_field_ops.md R100) -/

@[simp] theorem afterCommand_w (i : Instr) (s : State) :
    (afterCommand i s).w = s.w.set i.dest.val (Vector.replicate 8 true) := by simp [afterCommand]
@[simp] theorem afterCommand_err (i : Instr) (s : State) : (afterCommand i s).err = s.err := by simp [afterCommand]
@[simp] theorem afterCommand_cause (i : Instr) (s : State) : (afterCommand i s).cause = s.cause := by simp [afterCommand]
@[simp] theorem afterCommand_multi (i : Instr) (s : State) : (afterCommand i s).multi = s.multi := by simp [afterCommand]
@[simp] theorem afterCommand_errcmd (i : Instr) (s : State) : (afterCommand i s).errcmd = s.errcmd := by
  simp [afterCommand]
@[simp] theorem afterCommand_rstN (i : Instr) (s : State) : (afterCommand i s).rstN = s.rstN := by simp [afterCommand]
@[simp] theorem afterCommand_pending (i : Instr) (s : State) : (afterCommand i s).pending = s.pending := by
  simp [afterCommand]
@[simp] theorem afterCommand_answer (i : Instr) (s : State) : (afterCommand i s).answer = .done := by
  simp [afterCommand]

theorem reg_afterCommand (i : Instr) (s : State) (k : RegIx) :
    (afterCommand i s).reg k = if k = i.dest then bits256 (commandResult i s) else s.reg k := by
  rw [afterCommand, State.reg_writeReg, State.reg_congr (s := s) (by simp)]

theorem written_afterCommand (i : Instr) (s : State) (k : RegIx) (j : LimbIx) :
    (afterCommand i s).written k j = if k = i.dest then true else s.written k j := by
  rw [afterCommand, State.written_writeReg, State.written_congr (s := s) (by simp)]

/-- A command with an incompletely written source has a first one (R23, R100). -/
theorem unwrittenSource?_of_mem {s : State} {l : List RegIx} {r : RegIx} (hr : r ∈ l)
    (hw : s.fullyWritten r = false) :
    ∃ q ∈ l, s.fullyWritten q = false ∧ s.unwrittenSource? l = some q := by
  cases hq : s.unwrittenSource? l with
  | none => simp [(s.unwrittenSource?_eq_none l).1 hq r hr] at hw
  | some q => exact ⟨q, List.mem_of_find?_eq_some hq, by simpa using List.find?_some hq, rfl⟩

/-! ### The mark outlives every step (spec/60_exceptions.md R147) -/

/-- No event removes the mark. -/
theorem perform_mark_of_some {e : HostEvent} {s t : State} {m : ModelFault} (h : perform e s = .next t)
    (hm : s.mark = some m) : t.mark = some m := by
  rcases perform_next_cases h with ⟨level, -, rfl⟩ | ⟨x, -, -, rfl⟩ | ⟨i, j, v, -, -, rfl⟩ | ⟨v, i, -, -, -, rfl⟩ |
    ⟨v, c, -, -, -, rfl⟩ | ⟨v, -, -, rfl⟩ | ⟨v, -, -, rfl⟩
  case inr.inl => exact readTarget_mark_of_some x hm
  all_goals simp [hm, afterCommand_mark]

/-- No step removes the mark. -/
theorem step_mark_of_some {s t : State} {m : ModelFault} (h : step s = .next t) (hm : s.mark = some m) :
    t.mark = some m := by
  rcases step_next_cases h with ⟨-, rfl⟩ | ⟨e, rest, -, he⟩
  · exact hm
  · exact perform_mark_of_some he hm

/-- No run removes the mark. -/
theorem run_mark_of_some {n : Nat} {s t : State} {m : ModelFault} (h : run n s = .next t) (hm : s.mark = some m) :
    t.mark = some m :=
  run_keeps (P := fun u => u.mark = some m) (fun _ _ hu hstep => step_mark_of_some hstep hu) hm h

/-- A run that ends unmarked starts unmarked. -/
theorem good_of_run {n : Nat} {s t : State} (h : run n s = .next t) (ht : t.good) : s.good :=
  Option.eq_none_iff_forall_ne_some.2 fun _ hm => nomatch ht.symm.trans (run_mark_of_some h hm)

/-! ### States equal but for unwritten limbs (O47): every operation of the state keeps the relation -/

namespace AgreeOnWritten

variable {s t : State}

theorem refl (s : State) : AgreeOnWritten s s :=
  ⟨fun _ _ _ => rfl, rfl, rfl, rfl, rfl, rfl, rfl, rfl, rfl, rfl⟩

theorem written (h : AgreeOnWritten s t) (i : RegIx) (j : LimbIx) : t.written i j = s.written i j :=
  State.written_congr h.w i j

/-- A fully written register is the same in both. -/
theorem reg (h : AgreeOnWritten s t) {i : RegIx} (hi : s.fullyWritten i = true) : t.reg i = s.reg i :=
  eq_of_limbs_eq fun j => h.limbs i j ((s.fullyWritten_iff i).1 hi j)

theorem withPending (h : AgreeOnWritten s t) (queue : List HostEvent) :
    AgreeOnWritten { s with pending := queue } { t with pending := queue } :=
  { h with pending := rfl }

theorem respond (h : AgreeOnWritten s t) (a : Answer) : AgreeOnWritten (s.respond a) (t.respond a) :=
  { h with answer := rfl }

theorem recordCmdError (h : AgreeOnWritten s t) (c : CmdError) (v : Word) :
    AgreeOnWritten (s.recordCmdError c v) (t.recordCmdError c v) := by
  unfold State.recordCmdError
  by_cases hs : s.err = true
  · rw [if_pos hs, if_pos (h.err.trans hs)]
    exact { h with multi := rfl }
  · rw [if_neg hs, if_neg (by rwa [h.err])]
    exact { h with err := rfl, cause := rfl, errcmd := rfl }

theorem writeStatus (h : AgreeOnWritten s t) (v : Word) : AgreeOnWritten (s.writeStatus v) (t.writeStatus v) := by
  unfold State.writeStatus
  split
  · exact { h with err := rfl, cause := rfl, multi := rfl, errcmd := rfl }
  · exact h

theorem driveReset (h : AgreeOnWritten s t) (level : Bool) :
    AgreeOnWritten (s.driveReset level) (t.driveReset level) := by
  unfold State.driveReset
  rw [h.rstN]
  split
  · exact h
  · exact { refl _ with mark := h.mark, pending := h.pending }

theorem writeLimb (h : AgreeOnWritten s t) (i : RegIx) (j : LimbIx) (v : Word) :
    AgreeOnWritten (s.writeLimb i j v) (t.writeLimb i j v) := by
  refine { h with limbs := fun k l hk => ?_, w := by simp [h.w] }
  rw [State.limb_writeLimb, State.limb_writeLimb]
  split
  · rfl
  case isFalse hne => exact h.limbs k l (by rwa [State.written_writeLimb, if_neg hne] at hk)

theorem unwrittenSource? (h : AgreeOnWritten s t) (l : List RegIx) : t.unwrittenSource? l = s.unwrittenSource? l := by
  simp only [State.unwrittenSource?, State.fullyWritten, h.written]

/-- The result of a command whose sources are fully written is the same in both. -/
theorem commandResult (h : AgreeOnWritten s t) {i : Instr} (hi : ∀ r ∈ i.sources, s.fullyWritten r = true) :
    commandResult i t = commandResult i s := by
  have hreg : ∀ r ∈ i.sources, t.reg r = s.reg r := fun r hr => h.reg (hi r hr)
  cases i <;> simp only [Instr.sources, List.forall_mem_cons] at hreg <;> simp only [Machine.commandResult, hreg]

/-- A command that leaves no mark read fully written sources alone. -/
theorem afterCommand (h : AgreeOnWritten s t) {i : Instr} (hgood : (afterCommand i s).good) :
    AgreeOnWritten (afterCommand i s) (afterCommand i t) := by
  obtain ⟨-, hsrc⟩ : s.mark = none ∧ s.unwrittenSource? i.sources = none := by
    simpa [State.good, afterCommand_mark] using hgood
  have hres := h.commandResult ((s.unwrittenSource?_eq_none _).1 hsrc)
  constructor
  case limbs =>
    intro k l hk
    rw [State.limb, State.limb, reg_afterCommand, reg_afterCommand, hres]
    split
    · rfl
    case isFalse hne => exact h.limbs k l (by rwa [written_afterCommand, if_neg hne] at hk)
  case mark => rw [afterCommand_mark, afterCommand_mark, h.unwrittenSource?, h.mark]
  all_goals simp [h.w, h.err, h.cause, h.multi, h.errcmd, h.rstN, h.pending]

/-- A read that leaves no mark reached no unwritten limb. -/
theorem readTarget (h : AgreeOnWritten s t) (x : Target) (hgood : (readTarget x s).good) :
    AgreeOnWritten (readTarget x s) (readTarget x t) := by
  cases x with
  | freg i j =>
    have hw : s.written i j = true := by
      by_contra hw
      simp [State.good, Machine.readTarget, hw] at hgood
    have hs : s.noteRead i j = s := by rw [State.noteRead, if_pos hw]
    have ht : t.noteRead i j = t := by rw [State.noteRead, if_pos ((h.written i j).trans hw)]
    simp only [Machine.readTarget, hs, ht, h.limbs i j hw]
    exact h.respond _
  | cmd => exact h.respond _
  | status =>
    simp only [Machine.readTarget, State.statusWord, h.err, h.cause, h.multi]
    exact h.respond _
  | errcmd =>
    simp only [Machine.readTarget, h.errcmd]
    exact h.respond _

/-- An event that leaves no mark does the same to both. -/
theorem perform (h : AgreeOnWritten s t) {e : HostEvent} {s' : State} (he : perform e s = .next s') (hgood : s'.good) :
    ∃ t', perform e t = .next t' ∧ AgreeOnWritten s' t' := by
  rcases perform_next_cases he with ⟨level, rfl, rfl⟩ | ⟨x, rfl, hr, rfl⟩ | ⟨i, j, v, rfl, hr, rfl⟩ |
    ⟨v, i, rfl, hr, hd, rfl⟩ | ⟨v, c, rfl, hr, hd, rfl⟩ | ⟨v, rfl, hr, rfl⟩ | ⟨v, rfl, hr, rfl⟩
  · exact ⟨_, rfl, h.driveReset level⟩
  all_goals rw [← h.rstN] at hr
  · exact ⟨_, perform_br x t hr, h.readTarget x hgood⟩
  · exact ⟨_, perform_bw (.freg i j) v t hr, (h.writeLimb i j v).respond .done⟩
  · exact ⟨_, (perform_bw .cmd v t hr).trans (submit_ok hd t), h.afterCommand hgood⟩
  · exact ⟨_, (perform_bw .cmd v t hr).trans (submit_error hd t), (h.respond .done).recordCmdError c v⟩
  · exact ⟨_, perform_bw .status v t hr, (h.writeStatus v).respond .done⟩
  · exact ⟨_, perform_bw .errcmd v t hr, h.respond .done⟩

theorem step (h : AgreeOnWritten s t) {s' : State} (hs : step s = .next s') (hgood : s'.good) :
    ∃ t', step t = .next t' ∧ AgreeOnWritten s' t' := by
  rcases step_next_cases hs with ⟨hp, rfl⟩ | ⟨e, rest, hp, he⟩
  · exact ⟨t, by simp [Machine.step, acceptNext, h.pending, hp], h⟩
  · rw [step_of_pending (h.pending.trans hp)]
    exact (h.withPending rest).perform he hgood

theorem run (h : AgreeOnWritten s t) {n : Nat} {s' : State} (hs : run n s = .next s') (hgood : s'.good) :
    ∃ t', run n t = .next t' ∧ AgreeOnWritten s' t' := by
  induction n generalizing s t with
  | zero => cases hs; exact ⟨t, rfl, h⟩
  | succ n ih =>
    obtain ⟨u, hu, hrun⟩ := run_succ_eq_next.1 hs
    obtain ⟨v, hv, huv⟩ := h.step hu (good_of_run hrun hgood)
    obtain ⟨t', ht', hst⟩ := ih huv hrun
    exact ⟨t', run_succ_eq_next.2 ⟨v, hv, ht'⟩, hst⟩

end AgreeOnWritten

/-- Settles O47: the relation is kept by every step that leaves no mark, and a run that ends unmarked has no other. -/
theorem unwrittenLimbsNeverReachAGoodRun : Obligations.UnwrittenLimbsNeverReachAGoodRun :=
  fun _ _ _ _ h hs hgood => h.run hs hgood

/-! ### What a step can do to STATUS and ERRCMD, said once (spec/10_state.md R27 to R29) -/

/-- STATUS and ERRCMD are the same in both states. -/
structure SameStatus (s t : State) : Prop where
  err : t.err = s.err
  cause : t.cause = s.cause
  multi : t.multi = s.multi
  errcmd : t.errcmd = s.errcmd

/-- STATUS and ERRCMD are zero. -/
structure StatusZero (t : State) : Prop where
  err : t.err = false
  cause : t.cause = 0
  multi : t.multi = false
  errcmd : t.errcmd = 0

/-- STATUS and ERRCMD after the rejection of `v` (spec/60_exceptions.md R143). -/
structure Recorded (c : CmdError) (v : Word) (s t : State) : Prop where
  err : t.err = true
  cause : t.cause = if s.err then s.cause else c.code
  multi : t.multi = (s.err || s.multi)
  errcmd : t.errcmd = if s.err then s.errcmd else v

/-- `State.recordCmdError_multi` reads as a disjunction of truth values (`=` binds closer than `||` there); this is the
equation of the field. -/
theorem State.multi_recordCmdError (s : State) (c : CmdError) (v : Word) :
    (s.recordCmdError c v).multi = (s.err || s.multi) := by
  unfold State.recordCmdError
  split <;> simp_all

theorem recorded_submitted (c : CmdError) (v : Word) (s : State) :
    Recorded c v s ((s.respond .done).recordCmdError c v) :=
  ⟨State.recordCmdError_err .., State.recordCmdError_cause .., State.multi_recordCmdError ..,
    State.recordCmdError_errcmd ..⟩

/-- The event clears STATUS: a level on `rst_n`, or a write of STATUS with bit 0 = 1. -/
def ClearsStatus (e : HostEvent) : Prop :=
  (∃ level, e = .rst level) ∨ ∃ v, e = bw 0x204 v ∧ v.getLsbD 0 = true

theorem readTarget_sameStatus (x : Target) (s : State) : SameStatus s (readTarget x s) := by
  rw [readTarget_eq]
  exact ⟨rfl, rfl, rfl, rfl⟩

/-- Everything an event can do to STATUS and ERRCMD. -/
theorem perform_status_cases {e : HostEvent} {s t : State} (h : perform e s = .next t) :
    SameStatus s t ∨ (ClearsStatus e ∧ StatusZero t) ∨
    (∃ v c, e = bw 0x200 v ∧ decode v = .error c ∧ Recorded c v s t) := by
  rcases perform_next_cases h with ⟨level, rfl, rfl⟩ | ⟨x, -, -, rfl⟩ | ⟨i, j, v, -, -, rfl⟩ | ⟨v, i, -, -, -, rfl⟩ |
    ⟨v, c, rfl, -, hd, rfl⟩ | ⟨v, rfl, -, rfl⟩ | ⟨v, -, -, rfl⟩
  · rcases s.driveReset_eq level with ⟨hs, -, -⟩ | hs <;> rw [hs]
    · exact .inl ⟨rfl, rfl, rfl, rfl⟩
    · exact .inr (.inl ⟨.inl ⟨level, rfl⟩, ⟨rfl, rfl, rfl, rfl⟩⟩)
  · exact .inl (readTarget_sameStatus x s)
  · exact .inl ⟨rfl, rfl, rfl, rfl⟩
  · exact .inl ⟨by simp, by simp, by simp, by simp⟩
  · exact .inr (.inr ⟨v, c, rfl, hd, recorded_submitted c v s⟩)
  · by_cases hv : clearRequested v = true
    · exact .inr (.inl ⟨.inr ⟨v, rfl, hv⟩, by constructor <;> simp [hv]⟩)
    · exact .inl (by constructor <;> simp [hv])
  · exact .inl ⟨rfl, rfl, rfl, rfl⟩

/-- Everything a step can do to STATUS and ERRCMD. -/
theorem step_status_cases {s t : State} (h : step s = .next t) :
    SameStatus s t ∨ (∃ e rest, s.pending = e :: rest ∧ ClearsStatus e ∧ StatusZero t) ∨
    (∃ v c rest, s.pending = bw 0x200 v :: rest ∧ decode v = .error c ∧ Recorded c v s t) := by
  rcases step_next_cases h with ⟨-, rfl⟩ | ⟨e, rest, hp, he⟩
  · exact .inl ⟨rfl, rfl, rfl, rfl⟩
  rcases perform_status_cases he with ⟨h1, h2, h3, h4⟩ | ⟨hc, hz⟩ | ⟨v, c, rfl, hd, h1, h2, h3, h4⟩
  · exact .inl ⟨h1, h2, h3, h4⟩
  · exact .inr (.inl ⟨e, rest, hp, hc, hz⟩)
  · exact .inr (.inr ⟨v, c, rest, hp, hd, h1, h2, h3, h4⟩)

/-- Where an event that clears STATUS stands first, it is a clearing write or a level. -/
theorem ClearsStatus.cases {e : HostEvent} (h : ClearsStatus e) {queue rest : List HostEvent} (hq : queue = e :: rest) :
    (∃ v rest, queue = bw 0x204 v :: rest ∧ v.getLsbD 0 = true) ∨ (∃ level rest, queue = .rst level :: rest) := by
  rcases h with ⟨level, rfl⟩ | ⟨v, rfl, hv⟩
  · exact .inr ⟨level, rest, hq⟩
  · exact .inl ⟨v, rest, hq, hv⟩

/-! ### The invariant (O48, O49) -/

theorem statusInv_of_same {s t : State} (h : SameStatus s t) (hs : s.statusInv) : t.statusInv := by
  simpa only [State.statusInv, h.err, h.cause, h.multi, h.errcmd] using hs

theorem statusInv_of_zero {t : State} (h : StatusZero t) : t.statusInv :=
  ⟨fun _ => ⟨h.cause, h.multi, h.errcmd⟩, fun he => nomatch he.symm.trans h.err⟩

theorem statusInv_of_recorded {c : CmdError} {v : Word} {s t : State} (hd : decode v = .error c) (h : Recorded c v s t)
    (hs : s.statusInv) : t.statusInv := by
  refine ⟨fun he => (nomatch he.symm.trans h.err), fun _ => ?_⟩
  rw [h.cause, h.errcmd]
  by_cases he : s.err = true
  · rw [if_pos he, if_pos he]
    exact hs.2 he
  · rw [if_neg he, if_neg he]
    exact ⟨c, hd, rfl⟩

/-- What a step does to a state or leaves of it at a bus error keeps the invariant of STATUS and ERRCMD. -/
theorem stateAfter_step_statusInv {s t : State} (hs : s.statusInv) (h : stateAfter (step s) = some t) : t.statusInv := by
  rcases stateAfter_eq_some.1 h with h | ⟨kind, off, h⟩
  · rcases step_status_cases h with hsame | ⟨_, _, _, _, hz⟩ | ⟨v, c, _, _, hd, hrec⟩
    · exact statusInv_of_same hsame hs
    · exact statusInv_of_zero hz
    · exact statusInv_of_recorded hd hrec hs
  · obtain ⟨-, _, _, -, -, rfl⟩ := step_busError_cases h
    exact statusInv_of_same (by constructor <;> simp) hs

/-- A block out of reset has the invariant of a block held in reset. -/
theorem resetInv_of_rstN {t : State} (h : t.rstN = true) : t.resetInv :=
  fun h' => nomatch h.symm.trans h'

/-- An event keeps the invariant of a block held in reset: an access is performed out of reset alone. -/
theorem perform_resetInv {e : HostEvent} {s t : State} (hs : s.resetInv) (h : perform e s = .next t) : t.resetInv := by
  rcases perform_next_cases h with ⟨level, -, rfl⟩ | ⟨x, -, hr, rfl⟩ | ⟨i, j, v, -, hr, rfl⟩ | ⟨v, i, -, hr, -, rfl⟩ |
    ⟨v, c, -, hr, -, rfl⟩ | ⟨v, -, hr, rfl⟩ | ⟨v, -, hr, rfl⟩
  · rcases s.driveReset_eq level with ⟨hd, -, -⟩ | hd <;> rw [hd]
    · exact hs
    · exact fun _ => ⟨rfl, State.reset_written, rfl⟩
  · rw [readTarget_eq]
    exact resetInv_of_rstN hr
  all_goals exact resetInv_of_rstN (by simpa using hr)

/-- What a step does to a state or leaves of it at a bus error keeps the invariant of a block held in reset. -/
theorem stateAfter_step_resetInv {s t : State} (hs : s.resetInv) (h : stateAfter (step s) = some t) : t.resetInv := by
  rcases stateAfter_eq_some.1 h with h | ⟨kind, off, h⟩
  · rcases step_next_cases h with ⟨-, rfl⟩ | ⟨e, rest, -, he⟩
    · exact hs
    · exact perform_resetInv (s := { s with pending := rest }) hs he
  · obtain ⟨hr, _, _, _, _, rfl⟩ := step_busError_cases h
    exact resetInv_of_rstN (by simpa using hr)

/-- Settles O49: each half of the invariant is kept, by the cases of what a step can do. -/
theorem everyStepKeepsTheInvariant : Obligations.EveryStepKeepsTheInvariant :=
  fun _ _ hs h => ⟨stateAfter_step_statusInv hs.1 h, stateAfter_step_resetInv hs.2 h⟩

/-- Settles O48: the reset state has zero status and is out of reset. -/
theorem invariantHoldsAtReset : Obligations.InvariantHoldsAtReset :=
  ⟨statusInv_of_zero ⟨rfl, rfl, rfl, rfl⟩, resetInv_of_rstN rfl⟩

/-! ### CMD and the commands (O27, O28) -/

theorem decode_of_decodeTableWord {nbits w : Nat} {i : Instr} (h : decodeTableWord nbits w = some i) :
    decode (BitVec.ofNat 32 (w % 2 ^ nbits)) = .ok i := by
  unfold decodeTableWord at h
  split at h <;> cases h
  assumption

/-- A decodable word written to CMD is `exec` of its command, with the normal response given. -/
theorem step_command_exec {s : State} {w : Word} {rest : List HostEvent} {i : Instr} (hr : s.rstN = true)
    (hp : s.pending = bw 0x200 w :: rest) (hd : decode w = .ok i) :
    step s = exec i { s with pending := rest, answer := .done } := by
  rw [step_bw .cmd w hr hp, writeRegister, submit, hd]
  rfl

/-- Settles O27, by what a write of a decodable word to CMD does; a table word stands there by `withFetchWord`. -/
theorem stepRunsTheDecodedCommand : Obligations.StepRunsTheDecodedCommand :=
  ⟨fun _ _ _ _ hr hp hd => step_command_exec hr hp hd,
    fun s nbits w _ h => step_command_exec (s := s.withFetchWord nbits w) rfl rfl (decode_of_decodeTableWord h)⟩

/-- Settles O28: a word written to CMD is decoded to a command or to the cause of its rejection. -/
theorem cmdSubmitsEveryWord : Obligations.CmdSubmitsEveryWord := by
  refine fun s rest hr => ⟨fun hp => step_br .cmd hr hp, fun w hp => ?_⟩
  cases hd : decode w with
  | ok i =>
    exact ⟨_, step_command hr hp hd, afterCommand_answer i _,
      .inl ⟨i, rfl, (step_command_exec hr hp hd).symm.trans (step_command hr hp hd)⟩⟩
  | error c => exact ⟨_, step_rejected hr hp hd, State.recordCmdError_answer .., .inr ⟨c, rfl, rfl⟩⟩

/-! ### A register and its limbs (O31) -/

theorem limbOf_toNat (x : FieldWord) (j : LimbIx) : (limbOf x j).toNat = x.toNat / 2 ^ (32 * j.val) % 2 ^ 32 := by
  rw [limbOf, BitVec.extractLsb'_toNat, Nat.shiftRight_eq_div_pow]

/-- The limbs are adjacent pieces: seven times two neighbours join to one piece. -/
theorem eq_append_limbs (x : FieldWord) :
    x = limbOf x 7 ++ limbOf x 6 ++ limbOf x 5 ++ limbOf x 4 ++ limbOf x 3 ++ limbOf x 2 ++ limbOf x 1 ++ limbOf x 0 := by
  simp only [limbOf]
  iterate 7 rw [BitVec.extractLsb'_append_extractLsb'_eq_extractLsb' (by decide)]
  simp

/-- The limbs are the digits of the value in base 2^32. -/
theorem toNat_eq_sum_limbs (x : FieldWord) : x.toNat = ∑ j : LimbIx, (limbOf x j).toNat * 2 ^ (32 * j.val) := by
  have := x.isLt
  simp only [Fin.sum_univ_eight, limbOf_toNat, Fin.isValue, Fin.coe_ofNat_eq_mod, Nat.reduceMod, Nat.reduceMul]
  omega

/-- Settles O31, by the concatenation and the sum of the limbs of any 256-bit value. -/
theorem registerIsItsEightLimbs : Obligations.RegisterIsItsEightLimbs :=
  fun s i => ⟨eq_append_limbs (s.reg i), toNat_eq_sum_limbs (s.reg i)⟩

/-! ### STATUS, and its value at reset (O37, O38, O1) -/

theorem statusWord_toNat (s : State) : s.statusWord.toNat = s.err.toNat + 2 * s.cause.toNat + 8 * s.multi.toNat := by
  unfold State.statusWord
  generalize s.err = err, s.cause = cause, s.multi = multi
  revert err cause multi
  decide

theorem reset_statusWord : State.reset.statusWord = 0x00000000 := by decide

/-- The legal values of STATUS: no error, or one of three causes with or without MULTI (R27). -/
theorem statusWord_mem_of_statusInv {s : State} (h : s.statusInv) :
    s.statusWord ∈ [0x00000000, 0x00000003, 0x00000005, 0x00000007, 0x0000000B, 0x0000000D, 0x0000000F] := by
  unfold State.statusWord
  cases he : s.err with
  | false =>
    obtain ⟨hc, hm, -⟩ := h.1 he
    rw [hc, hm]
    decide
  | true =>
    obtain ⟨c, -, hc⟩ := h.2 he
    rw [hc]
    generalize s.multi = multi
    cases c <;> cases multi <;> decide

/-- Only a rejected word sets ERR or MULTI or gives CAUSE a new nonzero value. -/
theorem rejected_of_status_set {s t : State} (h : step s = .next t)
    (hset : (s.err = false ∧ t.err = true) ∨ (s.multi = false ∧ t.multi = true) ∨ (s.cause ≠ t.cause ∧ t.cause ≠ 0b00)) :
    ∃ w c rest, s.pending = bw 0x200 w :: rest ∧ decode w = .error c := by
  rcases step_status_cases h with hsame | ⟨-, -, -, -, hz⟩ | ⟨v, c, rest, hp, hd, -⟩
  · simp [hsame.err, hsame.cause, hsame.multi] at hset
  · simp [hz.err, hz.cause, hz.multi] at hset
  · exact ⟨v, c, rest, hp, hd⟩

/-- Settles O37: the value of STATUS, its legal values, a write's bit 0, and the cases of what a step does to STATUS. -/
theorem statusRegisterFields : Obligations.StatusRegisterFields := by
  refine ⟨reset_statusWord, fun s rest hr hp => ?_, fun s v v' rest hr hv => ?_, fun _ _ => rejected_of_status_set⟩
  · exact ⟨s.statusWord, step_br .status hr hp, statusWord_toNat s, statusWord_mem_of_statusInv⟩
  · have hw (u : Word) := step_writeStatus (s := { s with pending := bw 0x204 u :: rest }) hr rfl
    exact (hw v).trans (State.writeStatus_congr _ hv ▸ (hw v').symm)

/-- Settles O38: a write of STATUS acts by bit 0, which is the word's parity. -/
theorem statusWriteOneClears : Obligations.StatusWriteOneClears := by
  intro s v rest hr hp
  rw [step_writeStatus hr hp, State.writeStatus]
  refine ⟨fun hv => ?_, fun hv => ?_⟩
  · rw [if_pos ((clearRequested_iff v).2 hv)]
    rfl
  · rw [if_neg (by rw [clearRequested_iff]; omega)]
    rfl

/-- Settles O1: the fields of `State.reset`, and the read of each of the three registers. -/
theorem resetLeavesStatusAndFlagsClear : Obligations.ResetLeavesStatusAndFlagsClear :=
  ⟨rfl, rfl, rfl, rfl, rfl, State.reset_written, fun _ => ⟨_, step_br .status rfl rfl, congrArg Answer.data reset_statusWord⟩,
    fun _ => ⟨_, step_br .errcmd rfl rfl, rfl⟩, fun _ => ⟨_, step_br .cmd rfl rfl, rfl⟩⟩

/-! ### ERRCMD (O39) -/

/-- A rejected word written to CMD is recorded in STATUS and ERRCMD. -/
theorem step_rejected_recorded {s : State} {w : Word} {rest : List HostEvent} {c : CmdError} (hr : s.rstN = true)
    (hp : s.pending = bw 0x200 w :: rest) (hd : decode w = .error c) : ∃ t, step s = .next t ∧ Recorded c w s t := by
  obtain ⟨h1, h2, h3, h4⟩ := recorded_submitted c w { s with pending := rest }
  exact ⟨_, step_rejected hr hp hd, h1, h2, h3, h4⟩

/-- Only a first rejected word, a clearing write of STATUS or a level on `rst_n` changes ERRCMD. -/
theorem errcmd_change_cases {s t : State} (h : step s = .next t) (hne : t.errcmd ≠ s.errcmd) :
    (∃ c rest, s.pending = bw 0x200 t.errcmd :: rest ∧ s.err = false ∧ decode t.errcmd = .error c) ∨
    (∃ v rest, s.pending = bw 0x204 v :: rest ∧ v.getLsbD 0 = true) ∨ (∃ level rest, s.pending = .rst level :: rest) := by
  rcases step_status_cases h with hsame | ⟨e, rest, hp, hc, -⟩ | ⟨v, c, rest, hp, hd, hrec⟩
  · exact absurd hsame.errcmd hne
  · exact .inr (hc.cases hp)
  · have herr := hrec.errcmd
    cases he : s.err with
    | true => exact absurd (by simpa [he] using herr) hne
    | false =>
      obtain rfl : t.errcmd = v := by simpa [he] using herr
      exact .inl ⟨c, rest, hp, rfl, hd⟩

/-- Settles O39: the accesses to ERRCMD, the record of a rejection, the status invariant, and what changes ERRCMD. -/
theorem errcmdHoldsTheFirstRejectedWord : Obligations.ErrcmdHoldsTheFirstRejectedWord := by
  refine ⟨fun s rest hr => ⟨step_br .errcmd hr, fun v hp => step_bw .errcmd v hr hp⟩, fun s w rest c hr hp hd => ?_,
    ⟨rfl, rfl⟩, fun s t hs h he => ?_, fun _ _ => errcmd_change_cases⟩
  · obtain ⟨t, ht, hrec⟩ := step_rejected_recorded hr hp hd
    exact ⟨t, ht, hrec.err, fun he => by rw [hrec.errcmd, if_neg (by simp [he])], fun he => by rw [hrec.errcmd, if_pos he]⟩
  · obtain ⟨-, -, hz⟩ := (stateAfter_step_statusInv hs h).1 he
    exact hz

/-! ### Written flags (O45) -/

theorem written_writeLimb_or (s : State) (i r : RegIx) (j k : LimbIx) (v : Word) :
    (s.writeLimb i j v).written r k = (decide ((r, k) = (i, j)) || s.written r k) := by
  rw [State.written_writeLimb]
  split <;> simp [*]

theorem written_afterCommand_or (i : Instr) (s : State) (r : RegIx) (k : LimbIx) :
    (afterCommand i s).written r k = (decide (r = i.dest) || s.written r k) := by
  rw [written_afterCommand]
  split <;> simp [*]

theorem readTarget_mark_of_unwritten {s : State} {i : RegIx} {j : LimbIx} (hm : s.mark = none)
    (hw : s.written i j = false) : (readTarget (.freg i j) s).mark = some (.unwrittenRead i j) := by
  simp [readTarget, hw, hm]

/-- A read of an unwritten limb answers what the register holds and, with no earlier mark, marks it (R23). -/
theorem step_unwrittenRead {s : State} {i : RegIx} {j : LimbIx} {rest : List HostEvent} (hr : s.rstN = true)
    (hm : s.mark = none) (hp : s.pending = br (limbOffset i j) :: rest) (hw : s.written i j = false) :
    ∃ t, step s = .next t ∧ t.mark = some (.unwrittenRead i j) ∧ t.answer = .data (s.limb i j) :=
  ⟨_, step_br (.freg i j) hr hp, readTarget_mark_of_unwritten (s := { s with pending := rest }) hm hw, rfl⟩

/-- A command with an incompletely written source, with no earlier mark, marks one of them (R23, R100). -/
theorem step_unwrittenSource {s : State} {w : Word} {i : Instr} {r : RegIx} {rest : List HostEvent} (hr : s.rstN = true)
    (hm : s.mark = none) (hp : s.pending = bw 0x200 w :: rest) (hd : decode w = .ok i) (hsrc : r ∈ i.sources)
    (hw : s.fullyWritten r = false) :
    ∃ q ∈ i.sources, s.fullyWritten q = false ∧ strictOutcome s = .fault (.unwrittenSource q) := by
  obtain ⟨q, hq, hqw, hfind⟩ := unwrittenSource?_of_mem (s := { s with pending := rest }) hsrc hw
  exact ⟨q, hq, hqw, strictOutcome_of_mark (step_command hr hp hd) (by rw [afterCommand_mark, hfind, hm]; rfl)⟩

/-- Settles O45: one step lemma for each event that sets, clears or needs a written flag. -/
theorem writtenFlagsFollowTheirRule : Obligations.WrittenFlagsFollowTheirRule := by
  intro s rest
  refine ⟨fun hp => ⟨_, step_of_pending hp, ?_⟩, fun hr => ⟨fun i j v hp => ?_, fun w i hp hd => ?_,
    fun hm i j hp hw => ?_, fun hm w i r hp hd hsrc hw => ?_, fun hm w c hp hd => ?_⟩⟩
  · exact State.reset_written
  · exact ⟨_, step_bw (.freg i j) v hr hp, fun r k => written_writeLimb_or { s with pending := rest } i r j k v⟩
  · exact ⟨_, step_command hr hp hd, written_afterCommand_or i { s with pending := rest }⟩
  · obtain ⟨t, ht, hmark, hans⟩ := step_unwrittenRead hr hm hp hw
    exact ⟨strictOutcome_of_mark ht hmark, t, ht, hans⟩
  · refine ⟨step_unwrittenSource hr hm hp hd hsrc hw, _, step_command hr hp hd, _, exec_eq i s, ?_⟩
    rw [reg_afterCommand, if_pos rfl, State.reg_writeReg_same]
    rfl
  · exact ⟨_, strictOutcome_of_good (step_rejected hr hp hd) (by simpa using hm), by simp⟩

end Sys2Proof.Machine
end

section
/-! SUPPORT and PROOFS. The memory family: the aperture, the register window, the bus errors and the order of
events (spec/20_memory.md). -/

namespace Sys2Proof.Machine

/-! ### Which accesses are accepted (R41 to R44) -/

theorem accessTarget_of_bad {width : AccessWidth} {off : Offset} (h : width ≠ .bits32 ∨ off.toNat % 4 ≠ 0) :
    accessTarget width off = .error .badWidthOrAlignment := by
  rw [accessTarget, if_neg (by rw [aligned_iff]; tauto)]

theorem writeTarget_of_bad {width : AccessWidth} {strobe : BitVec 4} {off : Offset}
    (h : width ≠ .bits32 ∨ strobe ≠ 0b1111 ∨ off.toNat % 4 ≠ 0) :
    writeTarget width strobe off = .error .badWidthOrAlignment := by
  unfold writeTarget
  split
  · exact accessTarget_of_bad (by tauto)
  · rfl

theorem writeTarget_allLanes (width : AccessWidth) (off : Offset) :
    writeTarget width 0b1111 off = accessTarget width off := if_pos rfl

theorem accessTarget_of_unmapped {off : Offset} (h : 0x20C ≤ off.toNat) (ha : off.toNat % 4 = 0) :
    accessTarget .bits32 off = .error .unmapped := by
  rw [accessTarget, if_pos ⟨rfl, (aligned_iff off).2 ha⟩, (targetOf_eq_none off).2 h]

/-- An aligned offset below 0x20C is that of a mapped register. -/
theorem exists_target_of_mapped {off : Offset} (ha : off.toNat % 4 = 0) (h : off.toNat < 0x20C) :
    ∃ x, off = offsetOf x := by
  cases hx : targetOf off with
  | none => exact absurd ((targetOf_eq_none off).1 hx) (by omega)
  | some x => exact ⟨x, offset_eq_of_target ((aligned_iff off).2 ha) hx⟩

/-- The accepted events: the levels of `rst_n`, and the 32-bit accesses of mapped registers. -/
theorem accepted_cases {e : HostEvent} (h : accepted e) :
    (∃ level, e = .rst level) ∨ (∃ x, e = br (offsetOf x)) ∨ ∃ x v, e = bw (offsetOf x) v := by
  cases e with
  | rst level => exact .inl ⟨level, rfl⟩
  | read width off =>
    obtain ⟨rfl, ha, hlt⟩ := h
    obtain ⟨x, rfl⟩ := exists_target_of_mapped ha hlt
    exact .inr (.inl ⟨x, rfl⟩)
  | write width strobe off v =>
    obtain ⟨rfl, rfl, ha, hlt⟩ := h
    obtain ⟨x, rfl⟩ := exists_target_of_mapped ha hlt
    exact .inr (.inr ⟨x, v, rfl⟩)

theorem accessTarget_of_not_accepted {width : AccessWidth} {off : Offset} (h : ¬ accepted (.read width off)) :
    ∃ kind, accessTarget width off = .error kind := by
  by_cases hbad : width ≠ .bits32 ∨ off.toNat % 4 ≠ 0
  · exact ⟨_, accessTarget_of_bad hbad⟩
  · obtain ⟨rfl, ha⟩ : width = .bits32 ∧ off.toNat % 4 = 0 := by tauto
    exact ⟨_, accessTarget_of_unmapped (not_lt.1 fun hlt => h ⟨rfl, ha, hlt⟩) ha⟩

theorem writeTarget_of_not_accepted {width : AccessWidth} {strobe : BitVec 4} {off : Offset} {v : Word}
    (h : ¬ accepted (.write width strobe off v)) : ∃ kind, writeTarget width strobe off = .error kind := by
  unfold writeTarget
  split
  case isTrue hs => exact accessTarget_of_not_accepted fun ⟨hw, ha, hlt⟩ => h ⟨hw, hs, ha, hlt⟩
  case isFalse => exact ⟨_, rfl⟩

/-! ### Where an event completes, is a fault or is refused (R43, R44, R54, O42) -/

theorem perform_read_error {width : AccessWidth} {off : Offset} {kind : BusErrorKind}
    (h : accessTarget width off = .error kind) {s : State} (hr : s.rstN = true) :
    perform (.read width off) s = .fault (.busError kind off (s.rejectAccess kind off)) := by
  simp only [perform, hr, h, if_true]

theorem perform_write_error {width : AccessWidth} {strobe : BitVec 4} {off : Offset} {kind : BusErrorKind}
    (h : writeTarget width strobe off = .error kind) (v : Word) {s : State} (hr : s.rstN = true) :
    perform (.write width strobe off v) s = .fault (.busError kind off (s.rejectAccess kind off)) := by
  simp only [perform, hr, h, if_true]

theorem perform_of_accepted {e : HostEvent} (h : accepted e) {s : State} (hr : s.rstN = true) :
    ∃ t, perform e s = .next t := by
  rcases accepted_cases h with ⟨level, rfl⟩ | ⟨x, rfl⟩ | ⟨x, v, rfl⟩
  · exact ⟨_, rfl⟩
  · exact ⟨_, perform_br x s hr⟩
  · rw [perform_bw x v s hr]
    rcases writeRegister_cases x v s with ⟨_, _, _, hw⟩ | ⟨_, _, _, hw⟩ | ⟨_, _, _, hw⟩ | ⟨_, hw⟩ | ⟨_, hw⟩ <;>
      exact ⟨_, hw⟩

theorem perform_of_not_accepted {e : HostEvent} (h : ¬ accepted e) {s : State} (hr : s.rstN = true) :
    ∃ x, perform e s = .fault x := by
  cases e with
  | rst level => exact absurd trivial h
  | read width off =>
    obtain ⟨kind, hk⟩ := accessTarget_of_not_accepted h
    exact ⟨_, perform_read_error hk hr⟩
  | write width strobe off v =>
    obtain ⟨kind, hk⟩ := writeTarget_of_not_accepted h
    exact ⟨_, perform_write_error hk v hr⟩

/-- An access in reset is refused, and a level of `rst_n` is performed in reset too. -/
theorem perform_in_reset (e : HostEvent) {s : State} (hr : s.rstN = false) :
    (isAccess e ∧ ∃ r, perform e s = .refused r) ∨ (¬ isAccess e ∧ ∃ t, perform e s = .next t) := by
  cases e with
  | rst level => exact .inr ⟨id, _, rfl⟩
  | read width off => exact .inl ⟨trivial, .accessInReset off, by simp [perform, hr]⟩
  | write width strobe off v => exact .inl ⟨trivial, .accessInReset off, by simp [perform, hr]⟩

/-- An event is a fault exactly where it is an access the block does not accept, out of reset. -/
theorem perform_fault_iff (e : HostEvent) (s : State) :
    (∃ x, perform e s = .fault x) ↔ s.rstN = true ∧ ¬ accepted e := by
  refine ⟨fun ⟨x, hx⟩ => ?_, fun ⟨hr, h⟩ => perform_of_not_accepted h hr⟩
  obtain ⟨hr, -⟩ := perform_fault_cases hx
  refine ⟨hr, fun h => ?_⟩
  obtain ⟨t, ht⟩ := perform_of_accepted h hr
  exact nomatch hx.symm.trans ht

/-- An event is refused exactly where it is an access in reset. -/
theorem perform_refused_iff (e : HostEvent) (s : State) :
    (∃ r, perform e s = .refused r) ↔ s.rstN = false ∧ isAccess e := by
  cases hr : s.rstN with
  | true =>
    by_cases h : accepted e
    · obtain ⟨t, ht⟩ := perform_of_accepted h hr
      simp [ht]
    · obtain ⟨x, hx⟩ := perform_of_not_accepted h hr
      simp [hx]
  | false => rcases perform_in_reset e hr with ⟨ha, r, h⟩ | ⟨ha, t, h⟩ <;> simp [ha, h]

/-- Settles O42: with an event pending the step is that event's, and with none it completes. -/
theorem stepsStopOnlyAtUnacceptedAccesses : Obligations.StepsStopOnlyAtUnacceptedAccesses := by
  intro s
  cases hp : s.pending with
  | nil => simp [step, acceptNext, hp]
  | cons e rest =>
    rw [step_of_pending hp, perform_fault_iff, perform_refused_iff]
    simp

/-! ### Bus errors (O40, O41) -/

/-- A rejected event ends the step with its bus error, also in the outcome of spec/60_exceptions.md R147. -/
theorem busError_of_perform {s : State} {e : HostEvent} {rest : List HostEvent} {kind : BusErrorKind} {off : Offset}
    (hp : s.pending = e :: rest)
    (he : perform e { s with pending := rest } =
      .fault (.busError kind off (({ s with pending := rest } : State).rejectAccess kind off))) :
    strictOutcome s = .fault (.busError kind off) ∧
    step s = .fault (.busError kind off
      { s with pending := rest, answer := .error, mark := s.mark.or (some (.busError kind off)) }) := by
  have hstep := (step_of_pending hp).trans he
  exact ⟨strictOutcome_of_busError hstep, by rw [hstep, State.rejectAccess_eq]⟩

/-- Settles O40: the checks of R43 come before the map. -/
theorem badWidthOrAlignmentIsABusError : Obligations.BadWidthOrAlignmentIsABusError :=
  fun _ _ _ _ hr => ⟨fun hbad hp => busError_of_perform hp (perform_read_error (accessTarget_of_bad hbad) hr),
    fun _ v hbad hp => busError_of_perform hp (perform_write_error (writeTarget_of_bad hbad) v hr)⟩

/-- Settles O41: an access that passes the checks of R43 reaches no register from 0x20C up. -/
theorem unmappedOffsetIsABusError : Obligations.UnmappedOffsetIsABusError := by
  intro s off rest hr h ha hp
  have htarget := accessTarget_of_unmapped h ha
  rcases hp with hp | ⟨v, hp⟩
  · exact busError_of_perform hp (perform_read_error htarget hr)
  · exact busError_of_perform hp (perform_write_error ((writeTarget_allLanes ..).trans htarget) v hr)

/-! ### The queue of a step, and runs as events in order (R48, O50) -/

theorem stateAfter_withQueue (queue : List HostEvent) (o : Host.Outcome State Fault Refusal) :
    stateAfter (withQueue queue o) = (stateAfter o).map ({ · with pending := queue }) := by
  rcases o with t | ⟨kind, off, t⟩ | r <;> rfl

/-- An event leaves the queue behind it as it is. -/
theorem stateAfter_perform_pending {e : HostEvent} {s t : State} (h : stateAfter (perform e s) = some t) :
    t.pending = s.pending := by
  have hqueue : perform e s = withQueue s.pending (perform e s) := perform_withQueue e s s.pending
  rw [hqueue, stateAfter_withQueue] at h
  obtain ⟨u, -, rfl⟩ := Option.map_eq_some_iff.1 h
  rfl

/-- A step takes the first event from the queue, also where it ends with a bus error. -/
theorem stateAfter_step_pending {s t : State} {e : HostEvent} {queue : List HostEvent} (hp : s.pending = e :: queue)
    (h : stateAfter (step s) = some t) : t.pending = queue := by
  rw [step_of_pending hp] at h
  exact stateAfter_perform_pending h

/-- A step performs its event as it would be performed with another queue behind it. -/
theorem step_eq_withQueue {s : State} {e : HostEvent} {queue : List HostEvent} (rest : List HostEvent)
    (hp : s.pending = e :: queue) : step s = withQueue queue (perform e { s with pending := rest }) :=
  (step_of_pending hp).trans (perform_withQueue e { s with pending := rest } queue)

/-- A run that goes on past bus errors is its events in order. -/
theorem runOn_eq_runEventsOn (es : List HostEvent) {rest : List HostEvent} {s : State} (hp : s.pending = es ++ rest) :
    runOn es.length s = runEventsOn es { s with pending := rest } := by
  induction es generalizing s with
  | nil => obtain rfl : s.pending = rest := hp; rfl
  | cons e es ih =>
    simp only [List.length_cons, runOn, runEventsOn, step_eq_withQueue rest hp, stateAfter_withQueue, Option.bind_map]
    refine Option.bind_congr fun t ht => ?_
    obtain rfl : t.pending = rest := stateAfter_perform_pending ht
    exact ih rfl

/-- A run that stops at a bus error has the outcome of its events in order, up to the queue it leaves. -/
theorem withQueue_run_eq_runEvents (es : List HostEvent) {rest : List HostEvent} {s : State}
    (hp : s.pending = es ++ rest) : withQueue rest (run es.length s) = runEvents es { s with pending := rest } := by
  induction es generalizing s with
  | nil => rfl
  | cons e es ih =>
    have hpending {t : State} := stateAfter_perform_pending (e := e) (s := { s with pending := rest }) (t := t)
    simp only [List.length_cons, run, runEvents, step_eq_withQueue rest hp]
    rcases ho : perform e { s with pending := rest } with t | ⟨kind, off, t⟩ | r <;> simp only [withQueue]
    · obtain rfl : t.pending = rest := hpending (by rw [ho]; rfl)
      exact ih rfl
    · obtain rfl : t.pending = rest := hpending (by rw [ho]; rfl)
      rfl

/-- A run that answers a next state has accepted as many events as it has steps. -/
theorem run_next_pending (es : List HostEvent) {rest : List HostEvent} {s t : State} (hp : s.pending = es ++ rest)
    (h : run es.length s = .next t) : t.pending = rest := by
  induction es generalizing s with
  | nil => cases h; exact hp
  | cons e es ih =>
    obtain ⟨u, hu, hrun⟩ := run_succ_eq_next.1 h
    exact ih (stateAfter_step_pending hp (by rw [hu]; rfl)) hrun

/-- A run that stops at a bus error leaves in the queue the events behind an access the block does not accept. -/
theorem run_busError_pending (es : List HostEvent) {rest : List HostEvent} {s t : State} {kind : BusErrorKind}
    {off : Offset} (hp : s.pending = es ++ rest) (h : run es.length s = .fault (.busError kind off t)) :
    ∃ done e left, es = done ++ e :: left ∧ isAccess e ∧ ¬ accepted e ∧ t.pending = left ++ rest := by
  induction es generalizing s with
  | nil => cases h
  | cons e es ih =>
    rw [List.length_cons, run] at h
    split at h
    case h_1 u hu =>
      obtain ⟨done, d, left, rfl, hacc⟩ := ih (stateAfter_step_pending hp (by rw [hu]; rfl)) h
      exact ⟨e :: done, d, left, rfl, hacc⟩
    case h_2 x hx =>
      cases h
      have hpending := stateAfter_step_pending hp (t := t) (by rw [hx]; rfl)
      rw [step_of_pending hp] at hx
      obtain ⟨-, hacc, -⟩ := perform_fault_cases hx
      obtain ⟨-, hnot⟩ := (perform_fault_iff _ _).1 ⟨_, hx⟩
      exact ⟨[], e, es, rfl, hacc, hnot, hpending⟩
    case h_3 => cases h

/-- Settles O50, each clause by induction on the list of events. -/
theorem runIsItsEventsInOrder : Obligations.RunIsItsEventsInOrder :=
  fun es _ _ hp => ⟨runOn_eq_runEventsOn es hp, withQueue_run_eq_runEvents es hp, fun _ => run_next_pending es hp,
    fun _ _ _ => run_busError_pending es hp⟩

/-! ### The register window (O29, O30, O32) -/

/-- The window's byte depends on the one limb it lies in. -/
theorem State.windowByte_congr_limb {s t : State} (b : Fin 512)
    (h : t.limb ⟨b.val / 32, by omega⟩ ⟨b.val / 4 % 8, by omega⟩ =
      s.limb ⟨b.val / 32, by omega⟩ ⟨b.val / 4 % 8, by omega⟩) : t.windowByte b = s.windowByte b := by
  simp only [State.windowByte, h]

/-- A write of a limb leaves every byte of the window outside the four of that limb. -/
theorem State.windowByte_writeLimb_other (s : State) {i : RegIx} {j : LimbIx} (v : Word) {b : Fin 512}
    (h : b.val < (limbOffset i j).toNat ∨ (limbOffset i j).toNat + 4 ≤ b.val) :
    (s.writeLimb i j v).windowByte b = s.windowByte b := by
  rw [limbOffset_toNat] at h
  refine State.windowByte_congr_limb b ?_
  rw [State.limb_writeLimb, if_neg]
  simp only [Fin.ext_iff]
  omega

@[simp] theorem State.limb_writeLimb_same (s : State) (i : RegIx) (j : LimbIx) (v : Word) :
    (s.writeLimb i j v).limb i j = v := by simp [State.limb_writeLimb]

@[simp] theorem State.written_writeLimb_same (s : State) (i : RegIx) (j : LimbIx) (v : Word) :
    (s.writeLimb i j v).written i j = true := by simp [State.written_writeLimb]

/-- A read of a written limb answers it and changes nothing else. -/
theorem readTarget_of_written {s : State} {i : RegIx} {j : LimbIx} (h : s.written i j = true) :
    readTarget (.freg i j) s = s.respond (.data (s.limb i j)) := by
  rw [readTarget, State.noteRead, if_pos h]

theorem step_writeLimb {s : State} {i : RegIx} {j : LimbIx} {v : Word} {rest : List HostEvent} (hr : s.rstN = true)
    (hp : s.pending = bw (limbOffset i j) v :: rest) :
    step s = .next ((({ s with pending := rest } : State).writeLimb i j v).respond .done) :=
  step_bw (.freg i j) v hr hp

theorem step_readWrittenLimb {s : State} {i : RegIx} {j : LimbIx} {rest : List HostEvent} (hr : s.rstN = true)
    (hw : s.written i j = true) (hp : s.pending = br (limbOffset i j) :: rest) :
    step s = .next { s with pending := rest, answer := .data (s.limb i j) } :=
  (step_br (.freg i j) hr hp).trans (congrArg Host.Outcome.next (readTarget_of_written hw))

/-- An offset of the window is that of the limb and register it names. -/
theorem eq_limbOffset {off : Offset} {i : RegIx} {j : LimbIx} (ha : off.toNat % 4 = 0) (hi : i.val = off.toNat / 32)
    (hj : j.val = off.toNat / 4 % 8) : off = limbOffset i j := by
  apply BitVec.eq_of_toNat_eq
  rw [limbOffset_toNat]
  omega

/-- Settles O29: the step is the write or the read of the limb at the offset. -/
theorem registerWindowReadsAndWritesLimbs : Obligations.RegisterWindowReadsAndWritesLimbs := by
  intro s off rest i j hr _ ha hi hj
  obtain rfl := eq_limbOffset ha hi hj
  refine ⟨fun v hp => ⟨_, step_writeLimb hr hp, State.limb_writeLimb_same .., ?limbs, ?regs, ?bytes,
    State.written_writeLimb_same _ i j v, ?flags, rfl, rfl, rfl, rfl, rfl, rfl, rfl, rfl⟩,
    fun hp => ⟨fun hw => step_readWrittenLimb hr hw hp, fun hw hm => ?unwritten⟩⟩
  case limbs => exact fun k hk => (State.limb_writeLimb ..).trans (if_neg fun h => hk h.2)
  case regs => exact fun r hne => (State.reg_writeLimb ..).trans (if_neg hne)
  case bytes => exact fun b hb => State.windowByte_writeLimb_other { s with pending := rest } v hb
  case flags => exact fun r k hne => (State.written_writeLimb _ i r j k v).trans (if_neg fun h => hne (Prod.ext h.1 h.2))
  case unwritten =>
    obtain ⟨t, ht, hmark, -⟩ := step_unwrittenRead hr hm hp hw
    exact strictOutcome_of_mark ht hmark

/-- Settles O30: the write sets the limb's flag, so the read marks nothing. -/
theorem limbReadAfterWriteReturnsIt : Obligations.LimbReadAfterWriteReturnsIt := by
  intro s i j v rest hr hp
  refine ⟨_, run_succ_eq_next.2 ⟨_, step_writeLimb hr hp,
    run_succ_eq_next.2 ⟨_, step_readWrittenLimb hr ?flag rfl, rfl⟩⟩, congrArg Answer.data ?limb, rfl, rfl⟩
  case flag => exact State.written_writeLimb_same _ i j v
  case limb => exact State.limb_writeLimb_same ..

/-- Byte `b` of a value is byte `b % 4` of its limb `b / 4`. -/
theorem extractLsb'_limbOf (x : FieldWord) (b : Fin 32) :
    (limbOf x ⟨b.val / 4, by omega⟩).extractLsb' (8 * (b.val % 4)) 8 = x.extractLsb' (8 * b.val) 8 := by
  apply BitVec.eq_of_getLsbD_eq
  intro k hk
  have hlane : 8 * (b.val % 4) + k < 32 := by omega
  have hbit : 32 * (b.val / 4) + (8 * (b.val % 4) + k) = 8 * b.val + k := by omega
  simp only [BitVec.getLsbD_extractLsb', getLsbD_limbOf, hlane, hbit, decide_true, Bool.true_and]

/-- Settles O32: the byte at the offset lies in the register's limb `b / 4`. -/
theorem windowBytesAreLittleEndian : Obligations.WindowBytesAreLittleEndian := by
  intro s i b at_ hat
  have hreg : at_.val / 32 = i.val := by omega
  have hlimb : at_.val / 4 % 8 = b.val / 4 := by omega
  have hlane : at_.val % 4 = b.val % 4 := by omega
  simp only [State.windowByte, State.limb, hreg, hlimb, hlane]
  exact extractLsb'_limbOf (s.reg i) b

/-! ### The aperture (O44) -/

theorem busOffset_base_add (off : Offset) : busOffset (Config.base + off.toNat) = some off := by
  have hlt : off.toNat < Config.apertureBytes := off.isLt
  rw [busOffset, if_pos (by omega), Nat.add_sub_cancel_left, BitVec.ofNat_toNat, BitVec.setWidth_eq]

theorem busOffset_eq_none {addr : Nat} (h : addr < Config.base ∨ Config.base + 0xFFF < addr) :
    busOffset addr = none := by
  rw [busOffset, Config.apertureBytes, if_neg (by omega)]

/-- Settles O44: BASE is a multiple of the aperture's size, and the offset is the address less BASE. -/
theorem apertureIsFourKilobytesAtBase : Obligations.ApertureIsFourKilobytesAtBase :=
  ⟨Nat.mul_mod_right Config.apertureBytes Config.basePage, busOffset_base_add, fun _ => busOffset_eq_none⟩

end Sys2Proof.Machine
end

section
/-! SUPPORT and PROOFS. The encoding family: the coder, the opcode map, and the pseudo-instructions
(spec/30_encoding.md). -/

namespace Sys2Proof

open Sys2Proof.Machine

/-! ### Fields and words (R60 to R62) -/

@[simp] theorem regBits_toNat (r : RegIx) : (regBits r).toNat = r.val := congrArg Fin.val (regIx_regBits r)

@[simp] theorem regBits_regIx (b : BitVec 4) : regBits (regIx b) = b := by simp [regBits, regIx]

/-- A word is the word of its fields. -/
@[simp] theorem assemble_fieldsOf (w : Word) : assemble (fieldsOf w) = w := by
  simp only [assemble, fieldsOf]
  apply BitVec.eq_of_getLsbD_eq
  intro k hk
  simp only [BitVec.getLsbD_extractLsb', BitVec.getLsbD_append, BitVec.getLsbD_ofBool]
  interval_cases k <;> simp

theorem fieldsOf_inj {w v : Word} : fieldsOf w = fieldsOf v ↔ w = v :=
  ⟨fun h => by rw [← assemble_fieldsOf w, h, assemble_fieldsOf], congrArg fieldsOf⟩

theorem assemble_eq_or_shifts (f : Fields) : assemble f =
    (f.rsv.setWidth 32 <<< 17) ||| ((BitVec.ofBool f.cond).setWidth 32 <<< 16) ||| (f.rb.setWidth 32 <<< 12) |||
      (f.ra.setWidth 32 <<< 8) ||| (f.rd.setWidth 32 <<< 4) ||| f.op.setWidth 32 := by
  apply BitVec.eq_of_getLsbD_eq
  intro k hk
  simp only [assemble, BitVec.getLsbD_append, BitVec.getLsbD_or, BitVec.getLsbD_shiftLeft, BitVec.getLsbD_setWidth,
    BitVec.getLsbD_ofBool]
  interval_cases k <;> simp

/-- Settles O7, bit by bit. -/
theorem encodingPlacesFields : Obligations.EncodingPlacesFields :=
  ⟨assemble_eq_or_shifts, by decide⟩

/-! ### What the decoder answers, by the fields (R64) -/

/-- The fields of a command are accepted, and decode to it. -/
theorem decodeFields_fields (i : Instr) : decodeFields i.fields = .ok i := by
  cases i <;> simp [decodeFields, Instr.fields, opIllegal, opUnary, commandOf]

theorem fields_commandOf {f : Fields} (hop : opIllegal f.op = false) (hrsv : f.rsv = 0)
    (hcond : f.cond = true → f.op = 7) (hrb : opUnary f.op = true → f.rb = 0) : (commandOf f).fields = f := by
  obtain ⟨op, rd, ra, rb, cond, rsv⟩ := f
  dsimp only at *
  rcases legal_opcodes op with h | rfl | rfl | rfl | rfl | rfl | rfl | rfl
  case inl => simp [h] at hop
  all_goals simp_all [commandOf, Instr.fields, opUnary]

/-- Decoding and taking the fields of a command are inverse to each other. -/
theorem decodeFields_eq_ok_iff {f : Fields} {i : Instr} : decodeFields f = .ok i ↔ i.fields = f := by
  refine ⟨fun h => ?_, fun h => h ▸ decodeFields_fields i⟩
  rcases decodeFields_cases f with ⟨-, hd⟩ | ⟨-, -, hd⟩ | ⟨-, -, -, hd⟩ | ⟨hop, hrsv, hcond, hrb, hd⟩ <;>
    cases hd.symm.trans h
  exact fields_commandOf hop hrsv hcond hrb

theorem opIllegal_eq_false_iff (op : BitVec 4) : opIllegal op = false ↔ 1 ≤ op.toNat ∧ op.toNat ≤ 7 := by
  rw [← Bool.not_eq_true, opIllegal_iff]
  omega

theorem decodeFields_eq_illegalOpcode_iff (f : Fields) :
    decodeFields f = .error .illegalOpcode ↔ opIllegal f.op = true := by
  rcases decodeFields_cases f with ⟨hop, hd⟩ | ⟨hop, -, hd⟩ | ⟨hop, -, -, hd⟩ | ⟨hop, -, -, -, hd⟩ <;> simp [hd, hop]

theorem decodeFields_eq_reservedNonzero_iff (f : Fields) :
    decodeFields f = .error .reservedNonzero ↔ opIllegal f.op = false ∧ f.rsv ≠ 0 := by
  rcases decodeFields_cases f with ⟨hop, hd⟩ | ⟨hop, hrsv, hd⟩ | ⟨-, hrsv, -, hd⟩ | ⟨-, hrsv, -, -, hd⟩ <;> simp_all

theorem decodeFields_eq_unusedFieldNonzero_iff (f : Fields) :
    decodeFields f = .error .unusedFieldNonzero ↔ opIllegal f.op = false ∧ f.rsv = 0 ∧
      ((f.cond = true ∧ f.op ≠ 7) ∨ (opUnary f.op = true ∧ f.rb ≠ 0)) := by
  rcases decodeFields_cases f with ⟨hop, hd⟩ | ⟨-, hrsv, hd⟩ | ⟨hop, hrsv, hunused, hd⟩ | ⟨-, -, hcond, hrb, hd⟩
  · simp [hd, hop]
  · exact iff_of_false (by simp [hd]) fun ⟨_, h, _⟩ => hrsv h
  · exact iff_of_true hd ⟨hop, hrsv, hunused⟩
  · exact iff_of_false (by simp [hd]) (by tauto)

theorem exists_decodeFields_eq_ok_iff (f : Fields) : (∃ i, decodeFields f = .ok i) ↔
    opIllegal f.op = false ∧ f.rsv = 0 ∧ (f.cond = true → f.op = 7) ∧ (opUnary f.op = true → f.rb = 0) := by
  rcases decodeFields_cases f with ⟨hop, hd⟩ | ⟨-, hrsv, hd⟩ | ⟨-, -, hunused, hd⟩ | ⟨hop, hrsv, hcond, hrb, hd⟩
  · simp [hd, hop]
  · exact iff_of_false (by simp [hd]) fun ⟨_, h, _⟩ => hrsv h
  · exact iff_of_false (by simp [hd]) (by tauto)
  · exact iff_of_true ⟨_, hd⟩ ⟨hop, hrsv, hcond, hrb⟩

/-! ### The coder (R62, R64, R66) -/

/-- A word decodes to a command exactly when it is the encoding of that command. -/
theorem decode_eq_ok_iff {w : Word} {i : Instr} : decode w = .ok i ↔ encode i = w := by
  rw [decode, decodeFields_eq_ok_iff, ← fieldsOf_inj, encode, fieldsOf_assemble]

/-- Settles O3: the fields of a command's word are its own, and these the decoder answers with the command. -/
theorem decodeOfEncodeIsIdentity : Obligations.DecodeOfEncodeIsIdentity :=
  fun _ => decode_eq_ok_iff.2 rfl

/-- Settles O4: a word's encoded commands are the ones it decodes to. -/
theorem everyWordIsOneCommandOrAnError : Obligations.EveryWordIsOneCommandOrAnError := by
  intro w
  simp only [← decode_eq_ok_iff, ne_eq]
  cases decode w with
  | ok i => exact .inl ⟨i, rfl, fun k => by simp [eq_comm]⟩
  | error c => exact .inr ⟨c, rfl, fun k => by simp⟩

/-! ### The opcode map (R63) -/

/-- The opcode of a row: the opcode field of its match. -/
def Mnemonic.opcode (m : Mnemonic) : BitVec 4 := (fieldsOf m.matchWord).op

theorem Mnemonic.opcode_inj {m m' : Mnemonic} : m.opcode = m'.opcode ↔ m = m' := by
  cases m <;> cases m' <;> decide

theorem Instr.fields_op (i : Instr) : i.fields.op = i.mnemonic.opcode := by
  cases i <;> rfl

theorem Instr.mnemonic_eq_iff (i : Instr) (m : Mnemonic) : i.mnemonic = m ↔ i.fields.op.toNat = m.opcode.toNat := by
  rw [BitVec.toNat_inj, Instr.fields_op, Mnemonic.opcode_inj]

theorem Instr.fields_rd (i : Instr) : i.fields.rd = regBits i.dest := by
  cases i <;> rfl

/-- The sources of a command stand in the fields its opcode uses. -/
theorem Instr.sources_toNat (i : Instr) : i.sources.map (fun r => r.val) =
    if i.fields.op.toNat ≤ 3 then [i.fields.ra.toNat, i.fields.rb.toNat] else [i.fields.ra.toNat] := by
  cases i <;> simp [Instr.sources, Instr.fields]

/-- Fieldwise `and`. -/
def Fields.and (f g : Fields) : Fields :=
  ⟨f.op &&& g.op, f.rd &&& g.rd, f.ra &&& g.ra, f.rb &&& g.rb, f.cond && g.cond, f.rsv &&& g.rsv⟩

theorem fieldsOf_and (w v : Word) : fieldsOf (w &&& v) = (fieldsOf w).and (fieldsOf v) := by
  simp [fieldsOf, Fields.and, BitVec.extractLsb'_and]

/-- The fields a row's mask keeps: the opcode, the reserved bits and what the row's opcode does not use. -/
theorem Mnemonic.fieldsOf_mask (m : Mnemonic) : fieldsOf m.mask =
    ⟨BitVec.allOnes 4, 0, 0, if opUnary m.opcode then BitVec.allOnes 4 else 0, m.opcode != 7, BitVec.allOnes 15⟩ := by
  cases m <;> rfl

theorem Mnemonic.fieldsOf_matchWord (m : Mnemonic) : fieldsOf m.matchWord = ⟨m.opcode, 0, 0, 0, false, 0⟩ := by
  cases m <;> rfl

theorem Mnemonic.opIllegal_opcode (m : Mnemonic) : opIllegal m.opcode = false := by
  cases m <;> rfl

/-- Fields match a row under its mask exactly when they have its opcode and are accepted. -/
theorem Fields.and_mask_eq_match_iff (f : Fields) (m : Mnemonic) :
    f.and (fieldsOf m.mask) = fieldsOf m.matchWord ↔ f.op = m.opcode ∧ ∃ i, decodeFields f = .ok i := by
  rw [m.fieldsOf_mask, m.fieldsOf_matchWord, exists_decodeFields_eq_ok_iff, Fields.and, Fields.mk.injEq]
  simp only [BitVec.and_allOnes]
  refine and_congr_right fun hop => ?_
  rw [hop, m.opIllegal_opcode]
  have hrb : (f.rb &&& if opUnary m.opcode = true then BitVec.allOnes 4 else 0) = 0 ↔
      (opUnary m.opcode = true → f.rb = 0) := by
    split
    case isTrue hu => rw [BitVec.and_allOnes]; simp [hu]
    case isFalse hu => simp [hu]
  have hcond : (f.cond && m.opcode != 7) = false ↔ (f.cond = true → m.opcode = 7) := by
    cases f.cond <;> simp
  have hzero (b : BitVec 4) : b &&& 0 = 0 := BitVec.and_zero
  simp only [hrb, hcond, hzero, true_and]
  tauto

theorem exists_decode_mnemonic_iff (w : Word) (m : Mnemonic) :
    (∃ i, decode w = .ok i ∧ i.mnemonic = m) ↔ w &&& m.mask = m.matchWord := by
  rw [← fieldsOf_inj, fieldsOf_and, Fields.and_mask_eq_match_iff, decode]
  constructor
  · rintro ⟨i, hd, rfl⟩
    exact ⟨by rw [← i.fields_op, decodeFields_eq_ok_iff.1 hd], i, hd⟩
  · rintro ⟨hop, i, hd⟩
    exact ⟨i, hd, by rw [i.mnemonic_eq_iff, decodeFields_eq_ok_iff.1 hd, hop]⟩

/-- Settles O5: the command a word decodes to selects its row, so a word that selects none is an error. -/
theorem decodeFollowsMatchAndMask : Obligations.DecodeFollowsMatchAndMask := by
  refine fun w => ⟨exists_decode_mnemonic_iff w, fun hnone => ?_⟩
  cases hd : decode w with
  | ok i => exact absurd ((exists_decode_mnemonic_iff w _).1 ⟨i, hd, rfl⟩) (hnone i.mnemonic)
  | error c => exact ⟨c, rfl⟩

/-! ### Well-formed fields (R60, R63) -/

theorem Fields.wellFormed_iff (f : Fields) : f.wellFormed = true ↔
    opIllegal f.op = false ∧ f.rsv = 0 ∧ (f.cond = true → f.op = 7) ∧ (opUnary f.op = true → f.rb = 0) := by
  have hcond : f.condUsed = true ↔ (f.cond = true → f.op = 7) := by
    cases hc : f.cond <;> simp [Fields.condUsed, hc]
  have hrb (hop : f.op.toNat ≤ 7) : f.rbUsed = true ↔ (opUnary f.op = true → f.rb = 0) := by
    rw [opUnary_iff, Fields.rbUsed, Bool.or_eq_true, beq_iff_eq, decide_eq_true_iff]
    by_cases hz : f.rb = 0
    · simp [hz]
    · simp only [hz, false_or, imp_false]
      omega
  rw [opIllegal_eq_false_iff, Fields.wellFormed, Fields.opLegal, Fields.rsvClear]
  simp only [Bool.and_eq_true, decide_eq_true_iff, beq_iff_eq, and_assoc, hcond]
  exact and_congr_right fun _ => and_congr_right fun h7 => by rw [hrb h7]

/-- Settles O8: the checks of WellFormed.lean and those of the decoder say the same of the fields. -/
theorem decodeAcceptsWellFormedFields : Obligations.DecodeAcceptsWellFormedFields :=
  fun w => (exists_decodeFields_eq_ok_iff (fieldsOf w)).trans (fieldsOf w).wellFormed_iff.symm

/-! ### The checks on the numbers of a word (R61, R64) -/

theorem fieldsOf_op_toNat (w : Word) : (fieldsOf w).op.toNat = w.toNat % 16 := by
  simp [fieldsOf]

theorem fieldsOf_rd_toNat (w : Word) : (fieldsOf w).rd.toNat = w.toNat / 2 ^ 4 % 16 := by
  simp [fieldsOf, Nat.shiftRight_eq_div_pow]

theorem fieldsOf_ra_toNat (w : Word) : (fieldsOf w).ra.toNat = w.toNat / 2 ^ 8 % 16 := by
  simp [fieldsOf, Nat.shiftRight_eq_div_pow]

theorem fieldsOf_rb_toNat (w : Word) : (fieldsOf w).rb.toNat = w.toNat / 2 ^ 12 % 16 := by
  simp [fieldsOf, Nat.shiftRight_eq_div_pow]

theorem fieldsOf_cond_iff (w : Word) : (fieldsOf w).cond = true ↔ w.toNat / 2 ^ 16 % 2 = 1 := by
  simp [fieldsOf, BitVec.getLsbD, Nat.testBit_eq_decide_div_mod_eq]

theorem fieldsOf_rsv_toNat (w : Word) : (fieldsOf w).rsv.toNat = w.toNat / 2 ^ 17 := by
  have := w.isLt
  simp only [fieldsOf, BitVec.extractLsb'_toNat, Nat.shiftRight_eq_div_pow]
  omega

/-- Settles O6: the causes by the checks on the fields, and an accepted word's fields are those of its command. -/
theorem decodeChecksInOrder : Obligations.DecodeChecksInOrder := by
  intro w op rd ra rb cond rsv hop hrd hra hrb hcond hrsv
  rw [← fieldsOf_op_toNat] at hop
  rw [← fieldsOf_rd_toNat] at hrd
  rw [← fieldsOf_ra_toNat] at hra
  rw [← fieldsOf_rb_toNat] at hrb
  rw [← fieldsOf_rsv_toNat] at hrsv
  have hcond1 : (fieldsOf w).cond = true ↔ cond = 1 := by rw [fieldsOf_cond_iff, hcond]
  simp only [decode]
  generalize fieldsOf w = f at *
  have h7 : f.op = 7 ↔ op = 7 := by rw [hop, ← BitVec.toNat_inj]; rfl
  have hrb0 : f.rb = 0 ↔ rb = 0 := by rw [hrb, ← BitVec.toNat_inj]; rfl
  have hrsv0 : f.rsv = 0 ↔ rsv = 0 := by rw [hrsv, ← BitVec.toNat_inj]; rfl
  refine ⟨?illegal, ?reserved, ?unused, ?command⟩
  case illegal => rw [decodeFields_eq_illegalOpcode_iff, opIllegal_iff, hop]
  case reserved => rw [decodeFields_eq_reservedNonzero_iff, opIllegal_eq_false_iff, ne_eq, hrsv0, hop]
  case unused =>
    rw [decodeFields_eq_unusedFieldNonzero_iff, opIllegal_eq_false_iff, opUnary_iff, ne_eq, ne_eq, hcond1, h7, hrb0,
      hrsv0, ← hop]
    omega
  case command =>
    intro i hi
    obtain rfl := decodeFields_eq_ok_iff.1 hi
    subst hop hrd hra hrb
    refine ⟨by rw [i.fields_rd, regBits_toNat], i.sources_toNat, i.mnemonic_eq_iff _, i.mnemonic_eq_iff _,
      i.mnemonic_eq_iff _, i.mnemonic_eq_iff _, i.mnemonic_eq_iff _, i.mnemonic_eq_iff _, i.mnemonic_eq_iff _, ?_⟩
    rintro d a c rfl
    exact hcond1

/-- Settles O9, by evaluation of the decoder on the twelve words. -/
theorem publishedWordsDecode : Obligations.PublishedWordsDecode := by
  unfold Obligations.PublishedWordsDecode
  decide

end Sys2Proof

namespace Sys2Proof.Machine

/-! ### The pseudo-instructions (R70) -/

/-- CNEG with the condition set is the residue of the negation (spec/41_field_ops.md R107). -/
theorem cnegResult_true (a : FieldWord) : cnegResult a true = modp (-(a.toNat : Int)) := by
  have hp : (p : Int) ≡ 0 [ZMOD p] := Int.modEq_zero_iff_dvd.2 dvd_rfl
  refine modp_congr ?_
  rw [modp_cast, ← zero_sub]
  exact hp.sub (Int.mod_modEq ..)

theorem exec_cneg_reg (fd fa : RegIx) (cond : Bool) (s : State) :
    ∃ t, exec (.cneg fd fa cond) s = .next t ∧ t.reg fd = bits256 (cnegResult (s.reg fa) cond) :=
  ⟨_, exec_eq _ s, State.reg_writeReg_same ..⟩

/-- Settles O34: both are CNEG, without and with the condition. -/
theorem pseudoInstructionsRedAndNeg : Obligations.PseudoInstructionsRedAndNeg :=
  fun fd fa s => ⟨exec_cneg_reg fd fa false s, cnegResult_true (s.reg fa) ▸ exec_cneg_reg fd fa true s⟩

/-! ### `ldf` and `stf` as events in order (O33) -/

/-- A run is its events in order where these all complete. -/
theorem run_of_runEvents {es rest : List HostEvent} {s t : State} (hp : s.pending = es ++ rest)
    (h : runEvents es { s with pending := rest } = .next t) : run es.length s = .next t := by
  rw [← withQueue_run_eq_runEvents es hp] at h
  cases hu : run es.length s with
  | next u =>
    obtain rfl : u.pending = rest := run_next_pending es hp hu
    rw [hu] at h
    exact h
  | fault x => rw [hu] at h; cases x; cases h
  | refused r => rw [hu] at h; cases h

@[simp] theorem State.limb_respond (s : State) (a : Answer) (i : RegIx) (j : LimbIx) :
    (s.respond a).limb i j = s.limb i j := rfl

@[simp] theorem State.written_respond (s : State) (a : Answer) (i : RegIx) (j : LimbIx) :
    (s.respond a).written i j = s.written i j := rfl

/-- The limbs `js` of the value `v` written to F[i] one after the other. -/
def loadLimbs (i : RegIx) (v : FieldWord) (js : List LimbIx) (s : State) : State :=
  js.foldl (fun u j => (u.writeLimb i j (limbOf v j)).respond .done) s

theorem loadLimbs_cons (i : RegIx) (v : FieldWord) (j : LimbIx) (js : List LimbIx) (s : State) :
    loadLimbs i v (j :: js) s = loadLimbs i v js ((s.writeLimb i j (limbOf v j)).respond .done) := rfl

theorem runEvents_limbWrites (i : RegIx) (v : FieldWord) (js : List LimbIx) {s : State} (hr : s.rstN = true) :
    runEvents (js.map fun j => bw (limbOffset i j) (limbOf v j)) s = .next (loadLimbs i v js s) := by
  induction js generalizing s with
  | nil => rfl
  | cons j js ih =>
    have hj : perform (bw (limbOffset i j) (limbOf v j)) s = .next ((s.writeLimb i j (limbOf v j)).respond .done) :=
      perform_bw (.freg i j) _ s hr
    rw [List.map_cons, runEvents, hj]
    exact ih hr

/-- The writes change the registers, the written flags and the response alone. -/
theorem loadLimbs_eq (i : RegIx) (v : FieldWord) (js : List LimbIx) (s : State) : loadLimbs i v js s =
    { s with f := (loadLimbs i v js s).f, w := (loadLimbs i v js s).w, answer := (loadLimbs i v js s).answer } := by
  induction js generalizing s with
  | nil => rfl
  | cons j js ih => exact ih _

theorem limb_loadLimbs (i : RegIx) (v : FieldWord) (js : List LimbIx) (s : State) (k : RegIx) (l : LimbIx) :
    (loadLimbs i v js s).limb k l = if k = i ∧ l ∈ js then limbOf v l else s.limb k l := by
  induction js generalizing s with
  | nil => simp [loadLimbs]
  | cons j js ih =>
    rw [loadLimbs_cons, ih, State.limb_respond, State.limb_writeLimb]
    by_cases hk : k = i <;> by_cases hl : l = j <;> simp [hk, hl]

theorem written_loadLimbs (i : RegIx) (v : FieldWord) (js : List LimbIx) (s : State) (k : RegIx) (l : LimbIx) :
    (loadLimbs i v js s).written k l = if k = i ∧ l ∈ js then true else s.written k l := by
  induction js generalizing s with
  | nil => simp [loadLimbs]
  | cons j js ih =>
    rw [loadLimbs_cons, ih, State.written_respond, State.written_writeLimb]
    by_cases hk : k = i <;> by_cases hl : l = j <;> simp [hk, hl]

/-- The limbs `js` of a fully written register read one after the other: the last read's answer stands. -/
theorem runEvents_limbReads (i : RegIx) (js : List LimbIx) {s : State} (hr : s.rstN = true)
    (hw : ∀ j, s.written i j = true) : runEvents (js.map fun j => br (limbOffset i j)) s =
      .next { s with answer := js.foldl (fun _ j => .data (s.limb i j)) s.answer } := by
  induction js generalizing s with
  | nil => rfl
  | cons j js ih =>
    have hj : perform (br (limbOffset i j)) s = .next (s.respond (.data (s.limb i j))) :=
      (perform_br (.freg i j) s hr).trans (congrArg Host.Outcome.next (readTarget_of_written (hw j)))
    rw [List.map_cons, runEvents, hj]
    exact ih hr hw

/-- The reads of `stf` up to that of limb `k`, and what stands behind them. -/
theorem stf_eq_append (i : RegIx) (k : LimbIx) : stf i =
    (((List.finRange 8).take k.val ++ [k]).map fun j => br (limbOffset i j)) ++
      ((List.finRange 8).drop (k.val + 1)).map fun j => br (limbOffset i j) := by
  fin_cases k <;> rfl

theorem run_ldf {i : RegIx} {v : FieldWord} {rest : List HostEvent} {s : State} (hr : s.rstN = true)
    (hp : s.pending = ldf i v ++ rest) :
    run 8 s = .next (loadLimbs i v (List.finRange 8) { s with pending := rest }) :=
  run_of_runEvents hp (runEvents_limbWrites i v (List.finRange 8) hr)

theorem run_stf {i : RegIx} {rest : List HostEvent} {s : State} (hr : s.rstN = true)
    (hp : s.pending = stf i ++ rest) (hw : s.fullyWritten i = true) (k : LimbIx) :
    ∃ left, run (k.val + 1) s = .next { s with pending := left, answer := .data (s.limb i k) } := by
  rw [stf_eq_append i k, List.append_assoc] at hp
  have hcount : (((List.finRange 8).take k.val ++ [k]).map fun j => br (limbOffset i j)).length = k.val + 1 := by
    simp [k.isLt.le]
  have hrun := run_of_runEvents hp (runEvents_limbReads i _ hr ((s.fullyWritten_iff i).1 hw))
  rw [List.foldl_concat, hcount] at hrun
  exact ⟨_, hrun⟩

/-- Settles O33: `ldf` writes every limb of the register and no other limb, and the reads of `stf` mark nothing. -/
theorem loadSequenceStoresTheValueAsWritten : Obligations.LoadSequenceStoresTheValueAsWritten := by
  refine fun s i v rest hr => ⟨fun hp => ?ldf, fun hp hw k => ?stf⟩
  case stf =>
    obtain ⟨left, hrun⟩ := run_stf hr hp hw k
    exact ⟨_, hrun, rfl, rfl⟩
  case ldf =>
    refine ⟨_, run_ldf hr hp, ?value, ?flags, fun k hk => ⟨?regs, ?written⟩, ?_⟩
    case value =>
      exact eq_of_limbs_eq fun l => (limb_loadLimbs ..).trans (if_pos ⟨rfl, List.mem_finRange l⟩)
    case flags =>
      exact (State.fullyWritten_iff ..).2 fun l =>
        (written_loadLimbs ..).trans (if_pos ⟨rfl, List.mem_finRange l⟩)
    case regs => exact eq_of_limbs_eq fun l => (limb_loadLimbs ..).trans (if_neg fun h => hk h.1)
    case written => exact fun l => (written_loadLimbs ..).trans (if_neg fun h => hk h.1)
    rw [loadLimbs_eq]
    exact ⟨rfl, rfl, rfl, rfl, rfl, hr, rfl⟩

end Sys2Proof.Machine
end

section
/-! SUPPORT and PROOFS. The field family: the modulus, the canonical reduction and the constant INV2, the laws of the
seven results, and which steps can leave a value outside [0, p) (spec/40_field_model.md, spec/10_state.md R21). -/

namespace Sys2Proof.Machine

/-! ### The modulus (R80) -/

theorem two_pow_255_eq : 2 ^ 255 = p + 19 := by decide

theorem two_pow_256_eq : 2 ^ 256 = p * 2 + 38 := by decide

theorem prime_p : Nat.Prime p :=
  Laws.prime_of_certificate (a := 2) (factors := [2, 2, 3, 65147, Laws.factorOfModulus]) (by decide +kernel) (by
    simp only [List.forall_mem_cons]
    exact ⟨Nat.prime_two, Nat.prime_two, Nat.prime_three, by norm_num, Laws.prime_factorOfModulus, by simp⟩)

/-- Every 256-bit value is below 3p. -/
theorem toNat_lt_three_mul_p (x : FieldWord) : x.toNat < 3 * p :=
  x.isLt.trans (by decide)

/-- Settles O10: primality by the certificate, the congruences by what 2^255 and 2^256 are, the numbers by evaluation. -/
theorem modulusIsThePrime25519 : Obligations.ModulusIsThePrime25519 := by
  refine ⟨rfl, by decide, prime_p, ?_, ?_, by decide, by decide, by decide, by decide, toNat_lt_three_mul_p⟩
  · rw [two_pow_255_eq]
    exact Nat.modulus_add_modEq_iff.2 .rfl
  · rw [two_pow_256_eq]
    exact Nat.modulus_mul_add_modEq_iff.2 .rfl

/-! ### The canonical reduction (R81) -/

theorem modp_modEq (x : Int) : (modp x : Int) ≡ x [ZMOD p] := by
  rw [modp_cast]
  exact Int.mod_modEq x p

/-- The canonical reduction is the one number below p that is congruent. -/
theorem modp_eq_iff {x : Int} {r : Nat} (hr : r < p) : modp x = r ↔ (r : Int) ≡ x [ZMOD p] := by
  constructor
  · rintro rfl
    exact modp_modEq x
  · intro h
    rw [modp_congr h.symm, modp_natCast, Nat.mod_eq_of_lt hr]

theorem modp_eq_sub_mul_floor (x : Int) : (modp x : Int) = x - p * ⌊(x : ℚ) / (p : ℚ)⌋ := by
  rw [modp_cast, Rat.floor_intCast_div_natCast, Int.emod_def]

/-- Settles O11: the reduction is the remainder of the division with the floor. -/
theorem reductionIsCanonical : Obligations.ReductionIsCanonical :=
  ⟨by decide, fun x => ⟨modp_lt x, modp_modEq x, fun _ hr h => ((modp_eq_iff hr).2 h).symm, modp_eq_sub_mul_floor x⟩⟩

/-! ### INV2 (R82) -/

theorem two_coprime_p : Nat.Coprime 2 p := by decide

theorem inv2_lt : inv2 < p := by decide

theorem two_mul_inv2 : 2 * inv2 = p + 1 := by decide

theorem two_mul_inv2_modEq : 2 * inv2 ≡ 1 [MOD p] := by
  rw [two_mul_inv2]
  exact Nat.modulus_add_modEq_iff.2 .rfl

/-- Doubling is injective on residues, since p is odd. -/
theorem eq_of_two_mul_modEq {x y : Nat} (hx : x < p) (hy : y < p) (h : 2 * x ≡ 2 * y [MOD p]) : x = y :=
  (h.cancel_left_of_coprime two_coprime_p.symm).eq_of_lt_of_lt hx hy

theorem two_mul_modEq_one_iff {x : Nat} (hx : x < p) : 2 * x ≡ 1 [MOD p] ↔ x = inv2 := by
  constructor
  · exact fun h => eq_of_two_mul_modEq hx inv2_lt (h.trans two_mul_inv2_modEq.symm)
  · rintro rfl
    exact two_mul_inv2_modEq

/-- Fermat: 2^(p−2) is an inverse of 2. -/
theorem two_mul_two_pow_modEq : 2 * 2 ^ (p - 2) ≡ 1 [MOD p] := by
  have hexp : p - 2 + 1 = p.totient := by
    have := prime_p.two_le
    rw [Nat.totient_prime prime_p]
    omega
  rw [← pow_succ', hexp]
  exact Nat.ModEq.pow_totient two_coprime_p

theorem inv2_eq_pow : inv2 = 2 ^ (p - 2) % p :=
  ((two_mul_modEq_one_iff (Nat.mod_lt _ p_pos)).1
    (((Nat.mod_modEq _ p).mul_left 2).trans two_mul_two_pow_modEq)).symm

/-- Settles O12: 2^(p−2) and INV2 are inverses of 2, which has only one. -/
theorem halvingConstantInvertsTwo : Obligations.HalvingConstantInvertsTwo :=
  ⟨inv2_eq_pow, by decide, rfl, by decide, fun _ hx => two_mul_modEq_one_iff hx⟩

/-! ### Every result depends on residues alone (R83) -/

section
variable {a a' b b' : FieldWord}

theorem addResult_congr (ha : (a.toNat : Int) ≡ a'.toNat [ZMOD p]) (hb : (b.toNat : Int) ≡ b'.toNat [ZMOD p]) :
    addResult a b = addResult a' b' := modp_congr (ha.add hb)

theorem subResult_congr (ha : (a.toNat : Int) ≡ a'.toNat [ZMOD p]) (hb : (b.toNat : Int) ≡ b'.toNat [ZMOD p]) :
    subResult a b = subResult a' b' := modp_congr (ha.sub hb)

theorem mulResult_congr (ha : (a.toNat : Int) ≡ a'.toNat [ZMOD p]) (hb : (b.toNat : Int) ≡ b'.toNat [ZMOD p]) :
    mulResult a b = mulResult a' b' := modp_congr (ha.mul hb)

theorem mul32Result_congr (ha : (a.toNat : Int) ≡ a'.toNat [ZMOD p]) : mul32Result a = mul32Result a' :=
  modp_congr (ha.mul_right _)

theorem sqrResult_congr (ha : (a.toNat : Int) ≡ a'.toNat [ZMOD p]) : sqrResult a = sqrResult a' :=
  modp_congr (ha.mul ha)

theorem hlvResult_congr (ha : (a.toNat : Int) ≡ a'.toNat [ZMOD p]) : hlvResult a = hlvResult a' :=
  modp_congr (ha.mul_right _)

theorem cnegResult_false (a : FieldWord) : cnegResult a false = modp (a.toNat : Int) := rfl

theorem cnegResult_congr (ha : (a.toNat : Int) ≡ a'.toNat [ZMOD p]) (cond : Bool) :
    cnegResult a cond = cnegResult a' cond := by
  cases cond with
  | false => exact modp_congr ha
  | true =>
    rw [cnegResult_true, cnegResult_true]
    exact modp_congr ha.neg

end

/-- Commands whose sources agree modulo p have the same result. -/
theorem commandResult_congr_residues {i : Instr} {s s' : State}
    (h : ∀ r ∈ i.sources, ((s.reg r).toNat : Int) ≡ (s'.reg r).toNat [ZMOD p]) :
    commandResult i s = commandResult i s' := by
  cases i with
  | add _ ra rb => exact addResult_congr (h ra (.head _)) (h rb (.tail _ (.head _)))
  | sub _ ra rb => exact subResult_congr (h ra (.head _)) (h rb (.tail _ (.head _)))
  | mul _ ra rb => exact mulResult_congr (h ra (.head _)) (h rb (.tail _ (.head _)))
  | mul32 _ ra => exact mul32Result_congr (h ra (.head _))
  | sqr _ ra => exact sqrResult_congr (h ra (.head _))
  | hlv _ ra => exact hlvResult_congr (h ra (.head _))
  | cneg _ ra cond => exact cnegResult_congr (h ra (.head _)) cond

/-- Settles O24: equal residues of the sources give equal results, which the destinations hold. -/
theorem resultsDependOnResiduesAlone : Obligations.ResultsDependOnResiduesAlone := by
  intro i s s' h
  refine ⟨_, _, exec_eq i s, exec_eq i s', ?_⟩
  rw [State.reg_writeReg_same, State.reg_writeReg_same,
    commandResult_congr_residues fun r hr => Int.natCast_modEq_iff.2 (h r hr)]

/-! ### The laws of the results (R89) -/

theorem cnegResult_lt (a : FieldWord) (cond : Bool) : cnegResult a cond < p := by
  cases cond with
  | false => exact modp_lt (a.toNat : Int)
  | true => exact cnegResult_true a ▸ modp_lt _

theorem addResult_eq_mod (a b : FieldWord) : addResult a b = (a.toNat + b.toNat) % p := by
  rw [addResult, ← Nat.cast_add, modp_natCast]

theorem mulResult_eq_mod (a b : FieldWord) : mulResult a b = a.toNat * b.toNat % p := by
  rw [mulResult, ← Nat.cast_mul, modp_natCast]

theorem mul32Result_eq_mod (a : FieldWord) : mul32Result a = a.toNat * k32 % p := by
  rw [mul32Result, ← Nat.cast_mul, modp_natCast]

theorem hlvResult_eq_mod (a : FieldWord) : hlvResult a = a.toNat * inv2 % p := by
  rw [hlvResult, ← Nat.cast_mul, modp_natCast]

theorem two_mul_hlvResult_modEq (a : FieldWord) : 2 * hlvResult a ≡ a.toNat [MOD p] :=
  calc 2 * hlvResult a ≡ 2 * (a.toNat * inv2) [MOD p] := by
        rw [hlvResult_eq_mod]
        exact (Nat.mod_modEq ..).mul_left 2
    _ = a.toNat * (2 * inv2) := Nat.mul_left_comm ..
    _ ≡ a.toNat * 1 [MOD p] := two_mul_inv2_modEq.mul_left _
    _ = a.toNat := Nat.mul_one _

/-- The negation of a value reduced from `x` is the residue of −x. -/
theorem cnegResult_bits256_modp (x : Int) : cnegResult (bits256 (modp x)) true = modp (-x) := by
  rw [cnegResult_true, bits256_toNat (modp_lt x)]
  exact modp_congr (modp_modEq x).neg

theorem cnegResult_cnegResult (a : FieldWord) :
    cnegResult (bits256 (cnegResult a true)) true = cnegResult a false := by
  rw [cnegResult_true a, cnegResult_bits256_modp, neg_neg, cnegResult_false]

/-- The operand p has the residue of 0. -/
theorem bits256_p_modEq : ((bits256 p).toNat : Int) ≡ (0 : FieldWord).toNat [ZMOD p] := by
  have hp : (bits256 p).toNat = p := by decide
  rw [hp]
  exact Int.modulus_modEq_zero

/-- Settles O13: the laws one by one, the last from the residue of the operand p. -/
theorem fieldLawsHold : Obligations.FieldLawsHold := by
  intro a b cond
  have hp := bits256_p_modEq
  refine ⟨⟨modp_lt _, modp_lt _, modp_lt _, modp_lt _, modp_lt _, modp_lt _, cnegResult_lt a cond⟩, ?add, modp_modEq _,
    ?mul, ⟨cnegResult_cnegResult a, rfl⟩, modp_congr (Int.natCast_modEq_iff.2 (two_mul_hlvResult_modEq a)), ?mul32,
    addResult_congr hp rfl, addResult_congr rfl hp, subResult_congr hp rfl, subResult_congr rfl hp,
    mulResult_congr hp rfl, mulResult_congr rfl hp, mul32Result_congr hp, sqrResult_congr hp, hlvResult_congr hp,
    cnegResult_congr hp cond⟩
  case add => exact addResult_eq_mod a b ▸ Nat.mod_modEq ..
  case mul => exact mulResult_eq_mod a b ▸ Nat.mod_modEq ..
  case mul32 =>
    rw [mul32Result_eq_mod, Nat.mul_comm]
    exact Nat.mod_modEq ..

/-! ### The equivalent forms of the results (R90) -/

/-- The half is the one number below p whose double is congruent. -/
theorem hlvResult_eq_of_double {a : FieldWord} {h : Nat} (hh : h < p) (h2 : 2 * h ≡ a.toNat [MOD p]) :
    hlvResult a = h :=
  eq_of_two_mul_modEq (modp_lt _) hh ((two_mul_hlvResult_modEq a).trans h2.symm)

theorem p_odd : p % 2 = 1 := by decide

/-- The half by the parity of the residue. -/
theorem hlvResult_eq_ite (a : FieldWord) : hlvResult a =
    if a.toNat % p % 2 = 0 then a.toNat % p / 2 else (a.toNat % p + p) / 2 := by
  have hodd := p_odd
  have hlt : a.toNat % p < p := Nat.mod_lt _ p_pos
  have hres : a.toNat % p ≡ a.toNat [MOD p] := Nat.mod_modEq ..
  generalize a.toNat % p = r at hlt hres ⊢
  split
  case isTrue heven =>
    have hdouble : 2 * (r / 2) = r := by omega
    exact hlvResult_eq_of_double (by omega) (by rwa [hdouble])
  case isFalse =>
    have hdouble : 2 * ((r + p) / 2) = r + p := by omega
    exact hlvResult_eq_of_double (by omega) (by rwa [hdouble, Nat.add_modulus_modEq_iff])

theorem hlvResult_addResult_self {a : FieldWord} (ha : a.toNat < p) :
    hlvResult (bits256 (addResult a a)) = a.toNat := by
  refine hlvResult_eq_of_double ha ?_
  have hlt : addResult a a < p := modp_lt _
  rw [bits256_toNat hlt, addResult_eq_mod, ← Nat.two_mul]
  exact (Nat.mod_modEq ..).symm

/-- The negation by the residue. -/
theorem cnegResult_true_eq_ite (a : FieldWord) :
    cnegResult a true = if a.toNat % p = 0 then 0 else p - a.toNat % p := by
  rw [cnegResult, if_pos rfl, modp_natCast, ← Nat.cast_sub (Nat.mod_lt _ p_pos).le, modp_natCast]
  split
  case isTrue h => rw [h, Nat.sub_zero, Nat.mod_self]
  case isFalse h => exact Nat.mod_eq_of_lt (Nat.sub_lt p_pos (Nat.pos_of_ne_zero h))

theorem cnegResult_subResult (a b : FieldWord) : cnegResult (bits256 (subResult b a)) true = subResult a b := by
  rw [subResult, cnegResult_bits256_modp, neg_sub, subResult]

theorem subResult_self (a : FieldWord) : subResult a a = 0 := by
  rw [subResult, sub_self, ← Nat.cast_zero, modp_natCast, Nat.zero_mod]

theorem bits256_k32_toNat : (bits256 121666).toNat = k32 := bits256_toNat (by decide)

/-- Settles O14: each form by the residue it is the one number below p of. -/
theorem equivalentResultForms : Obligations.EquivalentResultForms := by
  rintro a b _ rfl
  refine ⟨hlvResult_eq_ite a, cnegResult_true_eq_ite a, modp_natCast _, rfl, ?addComm, ?mulComm,
    (cnegResult_subResult a b).symm, subResult_self a, addResult_eq_mod a 0, ?mulOne, ?mul32, hlvResult_addResult_self⟩
  case addComm => rw [addResult_eq_mod, addResult_eq_mod, Nat.add_comm]
  case mulComm => rw [mulResult_eq_mod, mulResult_eq_mod, Nat.mul_comm]
  case mulOne =>
    have hone : (1 : FieldWord).toNat = 1 := by decide
    rw [mulResult_eq_mod, hone, Nat.mul_one]
  case mul32 => rw [mul32Result_eq_mod, mulResult_eq_mod, bits256_k32_toNat]

/-! ### Commands write canonical values (R84) -/

theorem bits256_commandResult_lt (i : Instr) (s : State) : (bits256 (commandResult i s)).toNat < p := by
  rw [bits256_toNat (commandResult_lt i s)]
  exact commandResult_lt i s

/-- The destination of a command holds its result. -/
theorem reg_dest_of_exec {i : Instr} {s t : State} (h : exec i s = .next t) :
    t.reg i.dest = bits256 (commandResult i s) := by
  rw [exec_eq] at h
  cases h
  exact State.reg_writeReg_same ..

/-- A canonical value has bit 255 clear. -/
theorem getLsbD_255_of_lt {x : FieldWord} (h : x.toNat < p) : x.getLsbD 255 = false :=
  Nat.testBit_lt_two_pow (h.trans (by decide))

/-- Settles O23: the destination holds a canonical reduction. -/
theorem commandResultsAreCanonical : Obligations.CommandResultsAreCanonical := by
  intro i s t h
  have hlt : (t.reg i.dest).toNat < p := by
    rw [reg_dest_of_exec h]
    exact bits256_commandResult_lt i s
  exact ⟨hlt, getLsbD_255_of_lt hlt⟩

/-! ### What an event can do to a register, said once (spec/10_state.md R21) -/

/-- A register an event leaves either holds its old value, or was reset, or had a limb written by the host, or is the
destination of a command and holds its result. -/
theorem perform_reg_cases {e : HostEvent} {s t : State} (h : perform e s = .next t) (i : RegIx) :
    t.reg i = s.reg i ∨ (∃ level, e = .rst level) ∨
    (∃ j v, e = bw (limbOffset i j) v ∧ t.reg i = withLimb (s.reg i) j v) ∨
    (∃ v c, e = bw 0x200 v ∧ decode v = .ok c ∧ i = c.dest ∧ t.reg i = bits256 (commandResult c s)) := by
  rcases perform_next_cases h with ⟨level, rfl, -⟩ | ⟨x, -, -, rfl⟩ | ⟨k, j, v, rfl, -, rfl⟩ | ⟨v, c, rfl, -, hd, rfl⟩ |
    ⟨v, c, -, -, -, rfl⟩ | ⟨v, -, -, rfl⟩ | ⟨v, -, -, rfl⟩
  · exact .inr (.inl ⟨level, rfl⟩)
  · rw [readTarget_eq]
    exact .inl rfl
  · have hreg := s.reg_writeLimb k i j v
    by_cases hi : i = k
    · subst hi
      exact .inr (.inr (.inl ⟨j, v, rfl, hreg.trans (if_pos rfl)⟩))
    · exact .inl (hreg.trans (if_neg hi))
  · have hreg := reg_afterCommand c s i
    by_cases hi : i = c.dest
    · exact .inr (.inr (.inr ⟨v, c, rfl, hd, hi, hreg.trans (if_pos hi)⟩))
    · exact .inl (hreg.trans (if_neg hi))
  all_goals exact .inl (State.reg_congr (by simp) i)

/-- Settles O26: only a reset and a host write of a limb put anything but an old or a canonical value in a register. -/
theorem onlyTheHostWritesNonCanonicalValues : Obligations.OnlyTheHostWritesNonCanonicalValues := by
  intro s t i h hs ht
  rcases step_next_cases h with ⟨-, rfl⟩ | ⟨e, rest, hp, he⟩
  · exact absurd hs ht
  rcases perform_reg_cases he i with hsame | ⟨level, rfl⟩ | ⟨j, v, rfl, -⟩ | ⟨v, c, -, -, -, hres⟩
  · exact absurd (hsame ▸ hs) ht
  · exact .inr ⟨level, rest, hp⟩
  · exact .inl ⟨j, v, rest, hp⟩
  · exact absurd (hres ▸ bits256_commandResult_lt c _) ht

end Sys2Proof.Machine
end

section
/-! SUPPORT and PROOFS. The command family: what each of the seven commands writes and leaves unchanged, and the step
that runs a command written to CMD (spec/41_field_ops.md). -/

namespace Sys2Proof

/-! ### The word of a command as a number (spec/30_encoding.md R62) -/

theorem toNat_append_eq_mul_add {m n : Nat} (x : BitVec m) (y : BitVec n) :
    (x ++ y).toNat = x.toNat * 2 ^ n + y.toNat := by
  rw [BitVec.toNat_append, ← Nat.shiftLeft_add_eq_or_of_lt y.isLt, Nat.shiftLeft_eq]

/-- The fields of a word weighted by their places. -/
theorem assemble_toNat (f : Fields) : (assemble f).toNat =
    f.rsv.toNat * 2 ^ 17 + f.cond.toNat * 2 ^ 16 + f.rb.toNat * 2 ^ 12 + f.ra.toNat * 2 ^ 8 + f.rd.toNat * 2 ^ 4 +
      f.op.toNat := by
  simp only [assemble, toNat_append_eq_mul_add, BitVec.toNat_ofBool]
  omega

/-- The number of a command's word is a word that decodes to the command. -/
theorem decode_ofNat_of_encode_toNat {i : Instr} {n : Nat} (h : (encode i).toNat = n) :
    decode (BitVec.ofNat 32 n) = .ok i := by
  rw [decode_eq_ok_iff, ← h, BitVec.ofNat_toNat, BitVec.setWidth_eq]

end Sys2Proof

namespace Sys2Proof.Machine

/-! ### What every command does to the state (R100) -/

/-- `t` is `s` after the command: its result is in the destination, whose written flags are set, the rest of the state
is unchanged, and so is the mark when the sources are fully written. -/
structure Executed (i : Instr) (s t : State) : Prop where
  reg : t.reg i.dest = bits256 (commandResult i s)
  written : ∀ j, t.written i.dest j = true
  frame : CommandFrame i.dest s t
  mark : (∀ r ∈ i.sources, s.fullyWritten r = true) → t.mark = s.mark

theorem exec_executed (i : Instr) (s : State) : ∃ t, exec i s = .next t ∧ Executed i s t :=
  ⟨_, exec_eq i s, {
    reg := State.reg_writeReg_same ..
    written := fun _ => State.written_writeReg_same ..
    frame := commandFrame_of_writeReg ..
    mark := fun h => by
      rw [State.writeReg_mark, State.noteSources_mark, (s.unwrittenSource?_eq_none _).2 h, Option.map_none,
        Option.or_none] }⟩

section
variable {i : Instr} {s t : State}

theorem Executed.toNat (h : Executed i s t) : (t.reg i.dest).toNat = commandResult i s := by
  rw [h.reg, bits256_toNat (commandResult_lt i s)]

theorem Executed.lt (h : Executed i s t) : (t.reg i.dest).toNat < p :=
  h.toNat ▸ commandResult_lt i s

/-- A command with one source register keeps the mark when that register is fully written. -/
theorem Executed.mark_of_source {ra : RegIx} (h : Executed i s t) (hsrc : i.sources = [ra])
    (ha : s.fullyWritten ra = true) : t.mark = s.mark :=
  h.mark (by simpa [hsrc] using ha)

/-- A command with two source registers keeps the mark when both are fully written. -/
theorem Executed.mark_of_sources {ra rb : RegIx} (h : Executed i s t) (hsrc : i.sources = [ra, rb])
    (ha : s.fullyWritten ra = true) (hb : s.fullyWritten rb = true) : t.mark = s.mark :=
  h.mark (by simpa [hsrc] using ⟨ha, hb⟩)

end

/-! ### What each result is congruent to (R101 to R107) -/

theorem addResult_modEq (a b : FieldWord) : addResult a b ≡ a.toNat + b.toNat [MOD p] := by
  rw [addResult_eq_mod]
  exact Nat.mod_modEq ..

/-- Adding the subtrahend to the difference gives the minuend. -/
theorem subResult_add_modEq (a b : FieldWord) : subResult a b + b.toNat ≡ a.toNat [MOD p] := by
  have h := (modp_modEq ((a.toNat : Int) - b.toNat)).add_right (b.toNat : Int)
  rw [sub_add_cancel, ← Nat.cast_add] at h
  exact Int.natCast_modEq_iff.1 h

theorem mulResult_modEq (a b : FieldWord) : mulResult a b ≡ a.toNat * b.toNat [MOD p] := by
  rw [mulResult_eq_mod]
  exact Nat.mod_modEq ..

theorem mul32Result_modEq (a : FieldWord) : mul32Result a ≡ k32 * a.toNat [MOD p] := by
  rw [mul32Result_eq_mod, Nat.mul_comm]
  exact Nat.mod_modEq ..

theorem sqrResult_eq_mulResult (a : FieldWord) : sqrResult a = mulResult a a := rfl

theorem sqrResult_modEq (a : FieldWord) : sqrResult a ≡ a.toNat ^ 2 [MOD p] := by
  rw [sqrResult_eq_mulResult, pow_two]
  exact mulResult_modEq a a

/-- Twice the half is the residue, or the residue plus p where it is odd. -/
theorem two_mul_hlvResult (a : FieldWord) :
    2 * hlvResult a = a.toNat % p + if a.toNat % p % 2 = 0 then 0 else p := by
  have hodd := p_odd
  rw [hlvResult_eq_ite]
  generalize a.toNat % p = r
  split <;> omega

/-- CNEG on the residue of its operand. -/
theorem cnegResult_eq_ite (a : FieldWord) (cond : Bool) :
    cnegResult a cond = if cond = false then a.toNat % p else modp ((p : Int) - ((a.toNat % p : Nat) : Int)) := by
  cases cond with
  | false => exact modp_natCast _
  | true => rw [cnegResult, if_pos rfl, modp_natCast, if_neg (by decide)]

/-! ### The seven commands -/

/-- Settles O15: the frame every command shares, with the sum as its result. -/
theorem addWritesReducedSum : Obligations.AddWritesReducedSum := by
  intro rd ra rb s
  obtain ⟨t, ht, h⟩ := exec_executed (.add rd ra rb) s
  exact ⟨decode_ofNat_of_encode_toNat (by simp [encode, assemble_toNat, Instr.fields]), t, ht, h.reg, h.lt,
    h.toNat ▸ addResult_modEq (s.reg ra) (s.reg rb), h.written, h.frame, h.mark_of_sources rfl⟩

/-- Settles O16: the frame every command shares, with the signed difference as its result. -/
theorem subWritesReducedDifference : Obligations.SubWritesReducedDifference := by
  intro rd ra rb s
  obtain ⟨t, ht, h⟩ := exec_executed (.sub rd ra rb) s
  exact ⟨decode_ofNat_of_encode_toNat (by simp [encode, assemble_toNat, Instr.fields]), t, ht, h.reg, h.lt,
    h.toNat ▸ subResult_add_modEq (s.reg ra) (s.reg rb), h.written, h.frame, h.mark_of_sources rfl⟩

/-- Settles O17: the frame every command shares, with the product as its result. -/
theorem mulWritesReducedProduct : Obligations.MulWritesReducedProduct := by
  intro rd ra rb s
  obtain ⟨t, ht, h⟩ := exec_executed (.mul rd ra rb) s
  exact ⟨decode_ofNat_of_encode_toNat (by simp [encode, assemble_toNat, Instr.fields]), t, ht, h.reg, h.lt,
    h.toNat ▸ mulResult_modEq (s.reg ra) (s.reg rb), h.written, h.frame, h.mark_of_sources rfl⟩

/-- Settles O18: the frame every command shares, with the multiple by the fixed constant as its result. -/
theorem mul32WritesReducedMultiple : Obligations.Mul32WritesReducedMultiple := by
  intro rd ra s
  obtain ⟨t, ht, h⟩ := exec_executed (.mul32 rd ra) s
  exact ⟨decode_ofNat_of_encode_toNat (by simp [encode, assemble_toNat, Instr.fields]), t, ht, h.reg, h.lt,
    h.toNat ▸ mul32Result_modEq (s.reg ra), h.written, h.frame, h.mark_of_source rfl⟩

/-- Settles O19: the square is the product of the operand with itself, which MUL with the register twice writes too. -/
theorem sqrWritesReducedSquare : Obligations.SqrWritesReducedSquare := by
  intro rd ra s
  obtain ⟨t, ht, h⟩ := exec_executed (.sqr rd ra) s
  obtain ⟨u, hu, hmul⟩ := exec_executed (.mul rd ra ra) s
  exact ⟨decode_ofNat_of_encode_toNat (by simp [encode, assemble_toNat, Instr.fields]), t, ht, h.reg, h.lt,
    h.toNat ▸ sqrResult_modEq (s.reg ra), ⟨u, hu, hmul.reg.trans h.reg.symm⟩, h.written, h.frame,
    h.mark_of_source rfl⟩

/-- Settles O20: twice the result is the residue, or the residue plus p where it is odd. -/
theorem hlvWritesFieldHalf : Obligations.HlvWritesFieldHalf := by
  intro rd ra s
  obtain ⟨t, ht, h⟩ := exec_executed (.hlv rd ra) s
  exact ⟨decode_ofNat_of_encode_toNat (by simp [encode, assemble_toNat, Instr.fields]), t, ht, h.reg, h.lt,
    h.toNat ▸ two_mul_hlvResult_modEq (s.reg ra), h.toNat ▸ two_mul_hlvResult (s.reg ra), h.written, h.frame,
    h.mark_of_source rfl⟩

/-- Settles O21: the result by the condition, and the negation by whether the residue is zero. -/
theorem cnegWritesResidueOrNegation : Obligations.CnegWritesResidueOrNegation := by
  rintro rd ra cond s _ rfl
  obtain ⟨t, ht, h⟩ := exec_executed (.cneg rd ra cond) s
  refine ⟨decode_ofNat_of_encode_toNat (by simp [encode, assemble_toNat, Instr.fields]), t, ht, ?result, h.lt,
    ?residue, ?negation, h.written, h.frame, h.mark_of_source rfl⟩
  case result => exact h.reg.trans (congrArg bits256 (cnegResult_eq_ite (s.reg ra) cond))
  case residue =>
    rintro rfl
    exact h.toNat.trans (modp_natCast _)
  case negation =>
    rintro rfl
    exact h.toNat.trans (cnegResult_true_eq_ite (s.reg ra))

/-! ### A command written to CMD (R100, spec/60_exceptions.md R147) -/

/-- Settles O22: the step is `exec` of the command, on the state without the event and with the response given; a source
not fully written is found and marked. -/
theorem commandWritesOnlyItsDestination : Obligations.CommandWritesOnlyItsDestination := by
  intro s w rest i hr hp hd
  obtain ⟨t, ht, h⟩ := exec_executed i { s with pending := rest, answer := .done }
  have hstep : step s = .next t := (step_command_exec hr hp hd).trans ht
  refine ⟨⟨t, hstep, h.frame, h.written, fun hw => ?_⟩,
    fun hm _ hsrc hw => step_unwrittenSource hr hm hp hd hsrc hw⟩
  have hmark : t.mark = s.mark := h.mark hw
  exact ⟨hmark, fun hm => strictOutcome_of_good hstep (hmark.trans hm)⟩

end Sys2Proof.Machine
end

section
/-! SUPPORT and PROOFS. The exception family: the record of a rejected word, error bits that stay and stop nothing, the
idle block, and the fault mark of every bus error (spec/60_exceptions.md). -/

namespace Sys2Proof.Machine

/-! ### The record of a rejected word (R143, O35) -/

/-- The first rejected word is kept with its cause. -/
theorem State.recordCmdError_of_noError {s : State} (h : s.err = false) (c : CmdError) (v : Word) :
    s.recordCmdError c v = { s with err := true, cause := c.code, errcmd := v } := by
  simp [State.recordCmdError, h]

/-- A further rejected word sets MULTI alone. -/
theorem State.recordCmdError_of_error {s : State} (h : s.err = true) (c : CmdError) (v : Word) :
    s.recordCmdError c v = { s with multi := true } := by
  simp [State.recordCmdError, h]

/-- Settles O35: the step records the word, by whether an error stands. -/
theorem rejectedWordIsRecorded : Obligations.RejectedWordIsRecorded := by
  refine ⟨⟨rfl, rfl, rfl⟩, fun s w rest c hr hp hd => ?_⟩
  rw [step_rejected hr hp hd]
  exact ⟨fun he => congrArg _ (State.recordCmdError_of_noError (by simpa using he) c w),
    fun he => congrArg _ (State.recordCmdError_of_error (by simpa using he) c w)⟩

/-! ### Error bits stay, and no command depends on them (R145, O36) -/

/-- A command computes and marks the same whatever the error bits are, and leaves them as they are. -/
theorem exec_withErrorBits (i : Instr) {s t : State} (h : exec i s = .next t) (e m : Bool) (c : BitVec 2) (w : Word) :
    exec i { s with err := e, cause := c, multi := m, errcmd := w } =
      .next { t with err := e, cause := c, multi := m, errcmd := w } := by
  rw [exec_eq] at h
  cases h
  rw [exec_eq, commandResult_congr (s := s) rfl, State.noteSources_eq, State.noteSources_eq]
  rfl

/-- Settles O36: what a step can do to STATUS, and that commands neither read nor write it. -/
theorem errorsStayUntilClearedAndStopNothing : Obligations.ErrorsStayUntilClearedAndStopNothing := by
  refine ⟨fun s t h he => ?_, fun i s t e m c w h => exec_withErrorBits i h e m c w⟩
  rcases step_status_cases h with hsame | ⟨e, rest, hp, hc, -⟩ | ⟨v, c, rest, -, -, hrec⟩
  · exact .inl ⟨hsame.err.trans he, hsame.cause, hsame.errcmd, hsame.multi.trans⟩
  · exact .inr (hc.cases hp)
  · exact .inl ⟨hrec.err, by rw [hrec.cause, if_pos he], by rw [hrec.errcmd, if_pos he],
      fun _ => by rw [hrec.multi, he, Bool.true_or]⟩

/-! ### The idle block (R154, spec/70_reset_and_hazards.md R162, O43) -/

theorem step_of_idle {s : State} (h : s.pending = []) : step s = .next s := by
  simp [step, acceptNext, h]

/-- Settles O43, by induction on the number of steps. -/
theorem idleBlockChangesNothing : Obligations.IdleBlockChangesNothing := by
  intro s h n
  induction n with
  | zero => rfl
  | succ n ih => exact run_succ_eq_next.2 ⟨s, step_of_idle h, ih⟩

/-! ### The fault mark (R147, O46) -/

/-- The state a bus error leaves has its fault in the mark, or the fault marked before. -/
theorem step_busError_mark {s t : State} {kind : BusErrorKind} {off : Offset}
    (h : step s = .fault (.busError kind off t)) : t.mark = s.mark.or (some (.busError kind off)) := by
  obtain ⟨-, _, _, -, -, rfl⟩ := step_busError_cases h
  exact State.rejectAccess_mark ..

/-- No step removes the mark, also where it ends with a bus error. -/
theorem stateAfter_step_mark_of_some {s t : State} {m : ModelFault} (h : stateAfter (step s) = some t)
    (hm : s.mark = some m) : t.mark = some m := by
  rcases stateAfter_eq_some.1 h with h | ⟨kind, off, h⟩
  · exact step_mark_of_some h hm
  · rw [step_busError_mark h, hm, Option.some_or]

/-- What every step keeps, also where it ends with a bus error, every run that goes on past bus errors keeps. -/
theorem runOn_keeps {P : State → Prop} (hstep : ∀ s t, P s → stateAfter (step s) = some t → P t) {n : Nat}
    {s t : State} (hs : P s) (h : runOn n s = some t) : P t := by
  induction n generalizing s with
  | zero => cases h; exact hs
  | succ n ih =>
    obtain ⟨u, hu, hrun⟩ := Option.bind_eq_some_iff.1 h
    exact ih (hstep s u hs hu) hrun

/-- Settles O46: the mark of a bus error, and the mark kept by every step of either kind of run. -/
theorem faultMarkIsNeverCleared : Obligations.FaultMarkIsNeverCleared := by
  refine ⟨fun s t kind off h => ?_, fun _ _ _ _ => run_mark_of_some, fun _ _ _ m h hm => ?_⟩
  · have hmark := step_busError_mark h
    exact ⟨hmark, by simp [State.good, hmark]⟩
  · exact runOn_keeps (P := fun u => u.mark = some m) (fun _ _ hu hstep => stateAfter_step_mark_of_some hstep hu) hm h

end Sys2Proof.Machine
end

section
/-! SUPPORT and PROOFS. The family of reset and hazards: the pulse on `rst_n` from every state, and commands whose
registers coincide (spec/70_reset_and_hazards.md). -/

namespace Sys2Proof.Machine

/-! ### Levels of `rst_n` (R160, O2) -/

theorem State.driveReset_high {s : State} (hr : s.rstN = true) : s.driveReset true = s := by
  simp [State.driveReset, hr]

/-- The rising level on a block held in reset leaves the reset values. -/
theorem State.driveReset_rise {s : State} (hr : s.rstN = false) :
    s.driveReset true = { s.resetBlock with rstN := true } := by
  simp [State.driveReset, hr]

/-- A pending level of `rst_n` is driven, in reset or out of it. -/
theorem step_rst {s : State} {level : Bool} {rest : List HostEvent} (hp : s.pending = .rst level :: rest) :
    step s = .next (({ s with pending := rest } : State).driveReset level) :=
  step_of_pending hp

theorem step_rst_rise {s : State} {rest : List HostEvent} (hr : s.rstN = false) (hp : s.pending = .rst true :: rest) :
    step s = .next { s.resetBlock with rstN := true, pending := rest } :=
  (step_rst hp).trans (congrArg _ (State.driveReset_rise hr))

/-- Settles O2: the low level holds the block in reset with the queue kept, and the rising level leaves the reset
values. -/
theorem resetPulseRestoresResetState : Obligations.ResetPulseRestoresResetState := by
  refine ⟨fun s rest hp => ?pulse, fun s rest hr hp => ?rise, fun s rest hr hp => ?high⟩
  case pulse =>
    exact ⟨_, run_succ_eq_next.2 ⟨_, step_rst hp, run_succ_eq_next.2 ⟨_, step_rst_rise rfl rfl, rfl⟩⟩,
      rfl, rfl, rfl, rfl, State.reset_written, rfl, rfl⟩
  case rise => exact ⟨_, step_rst_rise hr hp, rfl, rfl, rfl, rfl, State.reset_written, rfl, rfl⟩
  case high => exact (step_rst hp).trans (congrArg _ (State.driveReset_high hr))

/-! ### The result formulas the aliased forms need -/

theorem addResult_self (a : FieldWord) : addResult a a = 2 * a.toNat % p := by
  rw [addResult_eq_mod, two_mul]

theorem sqrResult_eq_mod (a : FieldWord) : sqrResult a = a.toNat ^ 2 % p := by
  rw [sqrResult_eq_mulResult, mulResult_eq_mod, pow_two]

theorem cnegResult_true_eq_mod (a : FieldWord) : cnegResult a true = (p - a.toNat % p) % p := by
  rw [cnegResult, if_pos rfl, modp_natCast, ← Nat.cast_sub (Nat.mod_lt _ p_pos).le, modp_natCast]

/-! ### What a command writes, whichever of its registers coincide (R165, O25)

The result is a function of the state before the command, so each formula holds for all registers, coinciding ones
included. -/

/-- The destination holds the result on the registers of the state before. -/
theorem exec_writes {i : Instr} {s : State} {n : Nat} (h : commandResult i s = n) :
    ∃ t, exec i s = .next t ∧ (t.reg i.dest).toNat = n := by
  obtain ⟨t, ht, hx⟩ := exec_executed i s
  exact ⟨t, ht, hx.toNat.trans h⟩

section
variable (rd ra rb : RegIx) (s : State)

theorem exec_add_writes : ∃ t, exec (.add rd ra rb) s = .next t ∧
    (t.reg rd).toNat = ((s.reg ra).toNat + (s.reg rb).toNat) % p :=
  exec_writes (addResult_eq_mod ..)

theorem exec_sub_writes : ∃ t, exec (.sub rd ra rb) s = .next t ∧
    ((t.reg rd).toNat : Int) = ((s.reg ra).toNat - (s.reg rb).toNat : Int) % p := by
  obtain ⟨t, ht, hres⟩ := exec_writes (i := .sub rd ra rb) (s := s) rfl
  exact ⟨t, ht, (congrArg Nat.cast hres).trans (modp_cast _)⟩

theorem exec_mul_writes : ∃ t, exec (.mul rd ra rb) s = .next t ∧
    (t.reg rd).toNat = (s.reg ra).toNat * (s.reg rb).toNat % p :=
  exec_writes (mulResult_eq_mod ..)

theorem exec_add_self_writes : ∃ t, exec (.add rd ra ra) s = .next t ∧
    (t.reg rd).toNat = 2 * (s.reg ra).toNat % p :=
  exec_writes (addResult_self _)

theorem exec_sub_self_writes : ∃ t, exec (.sub rd ra ra) s = .next t ∧ t.reg rd = 0 := by
  obtain ⟨t, ht, hres⟩ := exec_writes (i := .sub rd ra ra) (s := s) (subResult_self _)
  exact ⟨t, ht, BitVec.eq_of_toNat_eq hres⟩

theorem exec_mul_self_writes : ∃ t, exec (.mul rd ra ra) s = .next t ∧
    (t.reg rd).toNat = (s.reg ra).toNat ^ 2 % p :=
  exec_writes (sqrResult_eq_mod _)

theorem exec_mul32_writes : ∃ t, exec (.mul32 rd ra) s = .next t ∧
    (t.reg rd).toNat = k32 * (s.reg ra).toNat % p :=
  exec_writes (by rw [commandResult, mul32Result_eq_mod, Nat.mul_comm])

theorem exec_hlv_writes : ∃ t, exec (.hlv rd ra) s = .next t ∧
    (t.reg rd).toNat = inv2 * (s.reg ra).toNat % p :=
  exec_writes (by rw [commandResult, hlvResult_eq_mod, Nat.mul_comm])

end

/-- Settles O25: each aliased form is the formula of its command at registers that coincide. -/
theorem aliasedCommandsUseOldValues : Obligations.AliasedCommandsUseOldValues := by
  rintro r s _ rfl
  refine ⟨exec_mul32_writes r r s, exec_writes (sqrResult_eq_mod _), exec_hlv_writes r r s,
    exec_writes (modp_natCast _), exec_writes (cnegResult_true_eq_mod _), exec_add_self_writes r r s,
    exec_sub_self_writes r r s, exec_mul_self_writes r r s, ?binary⟩
  rintro q _ rfl
  exact ⟨exec_add_writes r r q s, exec_add_writes r q r s, exec_add_self_writes q r s,
    exec_sub_writes r r q s, exec_sub_writes r q r s, exec_sub_self_writes q r s,
    exec_mul_writes r r q s, exec_mul_writes r q r s, exec_mul_self_writes q r s⟩

end Sys2Proof.Machine
end
